-- ==== Sys2Proof/Word.lean ====
section
/-! DEFINITION. The plain data types of the engine: bytes, 32-bit words, 64-byte blocks and the
eight-word state register (00_scope R6, R9; 10_state R21). -/

namespace Sys2Proof

/-- A byte, 8 bits (R9). -/
abbrev Byte := BitVec 8

/-- A word, an unsigned 32-bit integer (R9). Its addition is addition modulo 2^32 (R10, R80). -/
abbrev Word := BitVec 32

/-- A block: exactly 64 bytes (R6 BLOCK_BYTES, R15 "a fixed 64-byte chunk of input"). -/
abbrev Block := Vector Byte 64

/-- The state register: "an ordered sequence of eight 32-bit words" H[0]..H[7] (R21). The same type
serves the STATE operand of COMPRESS (R63) and the result of the compression function (R93). -/
structure HState where
  h0 : Word
  h1 : Word
  h2 : Word
  h3 : Word
  h4 : Word
  h5 : Word
  h6 : Word
  h7 : Word
  deriving DecidableEq, Repr

/-- The words H[0]..H[7] in order (R21). -/
def HState.words (s : HState) : List Word :=
  [s.h0, s.h1, s.h2, s.h3, s.h4, s.h5, s.h6, s.h7]

end Sys2Proof
end

