-- ==== Sys2Proof/Machine/Operands.lean ====
section
/-! DEFINITION. Byte order (00_scope R12; 20_memory R41 to R45, all big-endian) and the operand forms
of the frames (30_encoding R62, R63). -/

namespace Sys2Proof.Machine

/-- be32: four bytes, most significant first, as a word (R12). -/
def be32 (b0 b1 b2 b3 : Byte) : Word := b0 ++ b1 ++ b2 ++ b3

/-- unbe32: the four bytes of a word, most significant first (R12). -/
def unbe32 (w : Word) : List Byte :=
  [w.extractLsb' 24 8, w.extractLsb' 16 8, w.extractLsb' 8 8, w.extractLsb' 0 8]

/-- be64: eight bytes, most significant first (R12); the LEN operand (R45, R62). -/
def be64 (b0 b1 b2 b3 b4 b5 b6 b7 : Byte) : BitVec 64 :=
  b0 ++ b1 ++ b2 ++ b3 ++ b4 ++ b5 ++ b6 ++ b7

/-- unbe64: the eight bytes of a 64-bit value, most significant first (R12); the length field (R42). -/
def unbe64 (v : BitVec 64) : List Byte :=
  [v.extractLsb' 56 8, v.extractLsb' 48 8, v.extractLsb' 40 8, v.extractLsb' 32 8,
   v.extractLsb' 24 8, v.extractLsb' 16 8, v.extractLsb' 8 8, v.extractLsb' 0 8]

/-- serialise(H): the eight words big-endian, H[0] first, 32 bytes (R43). The payload of FINALIZE,
HASH and COMPRESS (R69) and the STATE operand's byte form (R63). -/
def serialise (s : HState) : List Byte :=
  unbe32 s.h0 ++ unbe32 s.h1 ++ unbe32 s.h2 ++ unbe32 s.h3 ++
    unbe32 s.h4 ++ unbe32 s.h5 ++ unbe32 s.h6 ++ unbe32 s.h7

/-- One big-endian word from the front of a byte sequence, with the rest. -/
def readWord : List Byte → Option (Word × List Byte)
  | b0 :: b1 :: b2 :: b3 :: rest => some (be32 b0 b1 b2 b3, rest)
  | _ => none

/-- The STATE operand: S[i] = be32(frame[1+4i] .. frame[4+4i]), eight words, S[0] first (R63). -/
def readState (bs : List Byte) : Option (HState × List Byte) := do
  let (h0, bs) ← readWord bs
  let (h1, bs) ← readWord bs
  let (h2, bs) ← readWord bs
  let (h3, bs) ← readWord bs
  let (h4, bs) ← readWord bs
  let (h5, bs) ← readWord bs
  let (h6, bs) ← readWord bs
  let (h7, bs) ← readWord bs
  return (⟨h0, h1, h2, h3, h4, h5, h6, h7⟩, bs)

/-- The BLOCK operand: exactly 64 bytes from the front, in order, with the rest (R63). -/
def readBlock (bs : List Byte) : Option (Block × List Byte) :=
  if h : 64 ≤ bs.length then some (⟨(bs.take 64).toArray, by simp [h]⟩, bs.drop 64) else none

/-- The LEN operand: be64 of eight bytes from the front, as the number it is (unsigned, no scaling;
R62), with the rest. -/
def readLen : List Byte → Option (Nat × List Byte)
  | b0 :: b1 :: b2 :: b3 :: b4 :: b5 :: b6 :: b7 :: rest =>
    some ((be64 b0 b1 b2 b3 b4 b5 b6 b7).toNat, rest)
  | _ => none

/-- LEN and DATA of format FL: DATA is the LEN bytes after the LEN field, in stream order (R62);
nothing while they have not all arrived (R66). -/
def readData (bs : List Byte) : Option (List Byte × List Byte) :=
  match readLen bs with
  | some (len, rest) => if len ≤ rest.length then some (rest.take len, rest.drop len) else none
  | none => none

end Sys2Proof.Machine
end

