-- ==== Sys2Proof/Machine/Tables.lean ====
section
/-! DEFINITION. The read-only tables and the fixed parameters: K (10_state R35), IV (R36), and the
parameters of 00_scope R6 and R7. -/

namespace Sys2Proof.Machine

/-- p_0, …, p_63: the first 64 primes (R35: p_0 = 2, …, p_63 = 311). -/
def firstPrimes : List Nat :=
  [2, 3, 5, 7, 11, 13, 17, 19, 23, 29, 31, 37, 41, 43, 47, 53,
   59, 61, 67, 71, 73, 79, 83, 89, 97, 101, 103, 107, 109, 113, 127, 131,
   137, 139, 149, 151, 157, 163, 167, 173, 179, 181, 191, 193, 197, 199, 211, 223,
   227, 229, 233, 239, 241, 251, 257, 263, 269, 271, 277, 281, 283, 293, 307, 311]

/-- The integer cube root of `n`, bit by bit from bit `bits − 1` down: `root` is the part found so far,
and a bit stays when the cube does not pass `n`. -/
def cubeRootFrom (n : Nat) : Nat → Nat → Nat
  | 0, root => root
  | bits + 1, root =>
    let larger := root + (1 <<< bits)
    if larger * larger * larger ≤ n then cubeRootFrom n bits larger else cubeRootFrom n bits root

/-- K of the prime `p`: ⌊∛(p · 2^96)⌋ mod 2^32, the first 32 bits of the fraction of its cube root
(R35). The root has fewer than 35 bits, since ∛311 < 8. -/
def roundConstantOf (p : Nat) : Word := BitVec.ofNat 32 (cubeRootFrom (p <<< 96) 35 0)

/-- The 64 round constants K[0..63], in order, from their definition (R35). -/
def roundConstants : List Word := firstPrimes.map roundConstantOf

/-- The initial state IV[0..7] (R36). -/
def initialState : HState :=
  { h0 := 0x6a09e667, h1 := 0xbb67ae85, h2 := 0x3c6ef372, h3 := 0xa54ff53a,
    h4 := 0x510e527f, h5 := 0x9b05688c, h6 := 0x1f83d9ab, h7 := 0x5be0cd19 }

/-- MAX_TOTAL, the greatest admitted number of message bytes: 2^61 − 1 (R7). -/
def maxTotal : Nat := 2 ^ 61 - 1

/-- PAD_MARKER (R6). -/
def padMarker : Byte := 0x80

end Sys2Proof.Machine
end

