-- ==== Sys2Proof/Machine/Compressor.lean ====
section
/-! DEFINITION. BlockCompressor (40_compressor): the word primitives, the message schedule, the rounds
and the compression function. Its scratch (W, a..h, T1, T2, t; 10_state R34) is local to `compress`:
created fresh for each call and gone after it (R94). Word addition is the addition of `BitVec 32`,
which is addition modulo 2^32 (R80). -/

namespace Sys2Proof.Machine

/-- rotr(x, n): rotation of the 32 bits toward bit 0 by n places, 0 < n < 32 (R81). -/
def rotr (x : Word) (n : Nat) : Word := (x >>> n) ||| (x <<< (32 - n))

/-- shr(x, n): logical right shift, zero fill (R82). -/
def shr (x : Word) (n : Nat) : Word := x >>> n

/-- Ch(x, y, z) (R83). -/
def ch (x y z : Word) : Word := (x &&& y) ^^^ (~~~x &&& z)

/-- Maj(x, y, z) (R84). -/
def maj (x y z : Word) : Word := (x &&& y) ^^^ (x &&& z) ^^^ (y &&& z)

/-- Σ0 (R85). -/
def bigSigma0 (x : Word) : Word := rotr x 2 ^^^ rotr x 13 ^^^ rotr x 22

/-- Σ1 (R86). -/
def bigSigma1 (x : Word) : Word := rotr x 6 ^^^ rotr x 11 ^^^ rotr x 25

/-- σ0 (R87). -/
def smallSigma0 (x : Word) : Word := rotr x 7 ^^^ rotr x 18 ^^^ shr x 3

/-- σ1 (R88). -/
def smallSigma1 (x : Word) : Word := rotr x 17 ^^^ rotr x 19 ^^^ shr x 10

/-- W[i] for i in 0..15: be32 of the block's bytes 4i .. 4i+3 (R41, R89). -/
def blockWord (b : Block) (i : Fin 16) : Word :=
  be32 b[4 * i.val] b[4 * i.val + 1] b[4 * i.val + 2] b[4 * i.val + 3]

/-- The next schedule word, σ1(W[t-2]) + W[t-7] + σ0(W[t-15]) + W[t-16], from the words so far NEWEST
FIRST: W[t-k] stands at place k − 1 (R89). -/
def nextScheduleWord (newest : List Word) : Word :=
  smallSigma1 (newest.getD 1 0) + newest.getD 6 0 + smallSigma0 (newest.getD 14 0) +
    newest.getD 15 0

/-- `n` more schedule words, each put at the front (newest first). -/
def extendSchedule : Nat → List Word → List Word
  | 0, newest => newest
  | n + 1, newest => extendSchedule n (nextScheduleWord newest :: newest)

/-- The message schedule W[0..63] of a block, in order (R89): W[0..15] from the block, then 48 more. -/
def schedule (b : Block) : List Word :=
  (extendSchedule 48 ((List.finRange 16).map (blockWord b)).reverse).reverse

/-- The working variables a..h (10_state R34, 40_compressor R90). -/
structure Work where
  a : Word
  b : Word
  c : Word
  d : Word
  e : Word
  f : Word
  g : Word
  h : Word
  deriving DecidableEq, Repr

/-- Working variable load: (a, .., h) <- (H[0], .., H[7]) (R90). -/
def loadWork (s : HState) : Work :=
  { a := s.h0, b := s.h1, c := s.h2, d := s.h3, e := s.h4, f := s.h5, g := s.h6, h := s.h7 }

/-- T1 <- h + Σ1(e) + Ch(e,f,g) + K[t] + W[t] (R91). -/
def roundT1 (k w : Word) (v : Work) : Word := v.h + bigSigma1 v.e + ch v.e v.f v.g + k + w

/-- T2 <- Σ0(a) + Maj(a,b,c) (R91). -/
def roundT2 (v : Work) : Word := bigSigma0 v.a + maj v.a v.b v.c

/-- One compression round with K[t] = k and W[t] = w; every right-hand side reads the values from
before the round (R91). -/
def roundStep (k w : Word) (v : Work) : Work :=
  { a := roundT1 k w v + roundT2 v, b := v.a, c := v.b, d := v.c,
    e := v.d + roundT1 k w v, f := v.e, g := v.f, h := v.g }

/-- The rounds t = 0, 1, …, 63 in increasing order, round t with K[t] and W[t] (R91, R93). -/
def runRounds (ws : List Word) (v : Work) : Work :=
  (roundConstants.zip ws).foldl (fun v kw => roundStep kw.1 kw.2 v) v

/-- Final addition: H'[i] = H[i] + the i-th working variable, each modulo 2^32 (R92). -/
def addBack (s : HState) (v : Work) : HState :=
  { h0 := s.h0 + v.a, h1 := s.h1 + v.b, h2 := s.h2 + v.c, h3 := s.h3 + v.d,
    h4 := s.h4 + v.e, h5 := s.h5 + v.f, h6 := s.h6 + v.g, h7 := s.h7 + v.h }

/-- compress(H, B), total on every state and block (R93). -/
def compress (s : HState) (b : Block) : HState :=
  addBack s (runRounds (schedule b) (loadWork s))

/-- compressN(H, [B0, …]): the left fold of the one-block contract (R96, conflict C4). -/
def compressN (s : HState) (bs : List Block) : HState := bs.foldl compress s

end Sys2Proof.Machine
end

