-- ==== Sys2Proof/Machine/Flags.lean ====
section
/-! DEFINITION. The engine has no flags (10_state R32): "The only status a command produces is the
STATUS byte of its response frame", and no command reads it back. This file holds the status codes
and the response frames (30_encoding R67, R68). -/

namespace Sys2Proof.Machine

/-- The two statuses; "No other error kinds exist" (R68, R141). -/
inductive Status where
  /-- the command took effect as its rule says -/
  | ok
  /-- InvalidState, the one error (R140) -/
  | invalidState
  deriving DecidableEq, Repr

/-- STATUS = 0x00 is OK, STATUS = 0x01 is INVALID_STATE (R68). -/
def Status.byte : Status → Byte
  | .ok => 0x00
  | .invalidState => 0x01

/-- A response frame: one STATUS byte, then the payload (R67). With no payload it is RSP0, with a
32-byte payload RSP32. -/
def responseFrame (status : Status) (payload : List Byte) : List Byte := status.byte :: payload

end Sys2Proof.Machine
end

