-- ==== Sys2Proof/Config.lean ====
section
/-! DEFINITION. What the spec leaves free. One free value: the don't-care bytes of the pending buffer
(93_implementation_defined U4, U5). The other open parameters need no constant: LATENCY, PORT_PHYS
and PORT_BASE enter no rule (00_scope R8, 70_reset R165, 20_memory R54), and N_INSTANCES is the
number of instances a `State` holds (`State.platform`). -/

namespace Sys2Proof

/-- The byte that stands at place `i` of BUF after instance `id` made its `n`-th event that leaves
BUF unspecified (reset, INIT, a drain; 10_state R24, decision D27): a FREE VALUE, nothing can
evaluate it. The identifier is an argument so that nothing relates the bytes of two instances. Log
entry 2. -/
opaque Config.dontCareByte (id n i : Nat) : Byte

end Sys2Proof
end

