-- ==== Sys2Proof/Syntax.lean ====
section
/-! DEFINITION. The five commands of the command port (00_scope R3, 30_encoding R64), one constructor
per row of the opcode table, each with exactly its frame's operands. -/

namespace Sys2Proof

/-- A command. LEN of UPDATE and HASH is the length of the data (R62, R70: "The programmer never
writes it"), so it is no field of its own; COMPRESS carries a block of exactly 64 bytes by its type
(R63: "makes it impossible to pass a block of any other length"). -/
inductive Instr where
  /-- INIT, 0x01, format F0 (R112). -/
  | init
  /-- UPDATE, 0x02, format FL (R113). -/
  | update (data : List Byte)
  /-- FINALIZE, 0x03, format F0 (R117). -/
  | finalize
  /-- HASH, 0x04, format FL (R118). -/
  | hash (data : List Byte)
  /-- COMPRESS, 0x05, format FC (R95). -/
  | compress (state : HState) (block : Block)
  deriving DecidableEq, Repr

end Sys2Proof
end

