-- ==== Sys2Proof/Machine/State.lean ====
section
/-! DEFINITION. The state of the machine as plain data: one engine per instance with the state tuple of
10_state R20 and its two ports, the platform's instances, and the inputs that come from outside. The
reasons a step can stop, and the state after reset. -/

namespace Sys2Proof.Machine

/-- PHASE (R27; "A model may use a three-valued type instead" of the 2 bits). -/
inductive Phase where
  /-- `Empty` (initial), 0b00 -/
  | empty
  /-- `Accumulating` (after any update), 0b01 -/
  | accumulating
  /-- `Finalized` (terminal, after finalize), 0b10 -/
  | finalized
  deriving DecidableEq, Repr

/-- One byte on a command port. `tx` is the MODEL's own tag: which transmission (one host sending its
frames) the byte belongs to. The engine does not see it; only the refusal ConcurrentAccess does
(R142, R163; log entry 5). -/
structure PortByte where
  tx : Nat
  byte : Byte
  deriving DecidableEq, Repr

/-- One instance: the state tuple (H, BUF, CNT, TOTAL, PHASE) of R20 and its ports (R60). -/
structure Engine where
  /-- the instance's identifier, its index; no command reads it (R151) -/
  id : Nat
  /-- H, the state register (R21) -/
  h : HState
  /-- BUF, the pending buffer; the bytes from CNT on are don't-care (R24) -/
  buf : Block
  /-- CNT, the count of valid bytes in BUF, 0..63 (R25) -/
  cnt : Fin 64
  /-- TOTAL, the number of message bytes so far (R26) -/
  total : BitVec 64
  /-- PHASE (R27) -/
  phase : Phase
  /-- the bytes the command port has received and no command has taken (R37, R60, R66) -/
  cmdPort : List PortByte
  /-- the response bytes being emitted, not accepted by the host yet (R160, R167) -/
  rspPending : List Byte
  /-- the response port's byte sequence that the host has accepted, in order (R60) -/
  rspPort : List Byte
  /-- whether the host accepts response bytes as they come (R167; log entry 6) -/
  hostReady : Bool
  /-- how many free values the instance has drawn: the MODEL's own (log entry 2) -/
  draws : Nat
  deriving DecidableEq, Repr

/-- What the host and the platform do at one instance's ports, between commands (R48). -/
inductive PortAction where
  /-- the host sends bytes of transmission `tx` to the command port (R60) -/
  | send (tx : Nat) (bytes : List Byte)
  /-- the host accepts `n` bytes of the response being emitted (R167) -/
  | accept (n : Nat)
  /-- the host begins, or stops, accepting response bytes as they come (R167) -/
  | ready (on : Bool)
  /-- the platform asserts the instance's reset (R160) -/
  | reset
  /-- the instance gets its turn: it takes its next step if it has one (R51) -/
  | run
  deriving DecidableEq, Repr

/-- One input from outside the machine. -/
inductive Event where
  /-- something happens at the ports of the instance with index `k` (R151) -/
  | port (k : Nat) (action : PortAction)
  /-- power-on, which resets every instance (R153, R160) -/
  | powerOn
  deriving DecidableEq, Repr

/-- The platform: N_INSTANCES = `before.length + 1 + after.length` ≥ 1 engines (R8, R151), of which
`self` is the one that moves next if it has a step; the inputs still to come, oldest first; and the build. -/
structure State where
  /-- the instances with a smaller index than `self`, in order -/
  before : List Engine
  /-- the instance that moves next, if it has a step (R51: any order; the inputs say it; log entry 4) -/
  self : Engine
  /-- the instances with a greater index than `self`, in order -/
  after : List Engine
  /-- what the host and the platform do next: the MODEL's own input list (log entry 4) -/
  inputs : List Event
  /-- the build has the COMPRESS command (R65, decision D6; log entry 7) -/
  hasCompress : Bool
  deriving DecidableEq, Repr

/-- Why the machine has no enabled step: stuck states, lifted from outside. -/
inductive Fault where
  /-- Raised by the step when no input is left, no instance has an enabled step, and the command port of
  `self` holds no complete frame (R153, R167): a stuck state. Safe: the hardware waits, the model
  stops. -/
  | frameIncomplete
  /-- Raised by the step when no input is left, no instance has an enabled step, and the host has not
  accepted the last response of `self` (R167): a stuck state. Safe: the hardware waits, the model
  stops. -/
  | responseNotAccepted
  /-- Raised by the step for an input at the ports of an instance the platform does not have (R151).
  Safe: there is no such port. -/
  | noSuchInstance
  deriving DecidableEq, Repr

/-- The frames the spec gives no meaning (R142). -/
inductive Refusal where
  /-- An arm of `exec` that has no meaning yet; no arm of this model raises it. Safe: the model stops. -/
  | notModelled (mnemonic : String)
  /-- Raised by the step: frame byte 0 is reserved (R65, R142). Safe: the hardware's behaviour is
  unspecified, the model stops. -/
  | reservedOpcode
  /-- Raised by UPDATE and HASH: TOTAL would pass MAX_TOTAL (R142). Safe: as above. -/
  | lengthCeiling
  /-- Raised by the step: the frame's bytes come from more than one transmission (R142, R163). Safe:
  as above. -/
  | concurrentAccess
  deriving DecidableEq, Repr

/-- The instance with index `k` right after reset (R37): H = IV, CNT = 0, TOTAL = 0, PHASE = Empty, no
frame byte received, no response being emitted. BUF is unspecified there: zeros are this model's
choice (DESIGN CHOICE, log entry 1). The host accepts responses (DESIGN CHOICE, log entry 6). -/
def Engine.afterReset (k : Nat) : Engine where
  id := k
  h := initialState
  buf := Vector.replicate 64 0
  cnt := 0
  total := 0
  phase := .empty
  cmdPort := []
  rspPending := []
  rspPort := []
  hostReady := true
  draws := 0

/-- A platform of N_INSTANCES = n + 1 instances, each right after reset (R37, R151). -/
def State.platform (n : Nat) : State where
  before := []
  self := Engine.afterReset 0
  after := (List.range n).map (fun k => Engine.afterReset (k + 1))
  inputs := []
  hasCompress := true

/-- The machine right after reset, with one instance (N_INSTANCES = 1: DESIGN CHOICE, log entry 3). -/
def State.reset : State := State.platform 0

end Sys2Proof.Machine
end

