-- ==== Sys2Proof/Machine/Ops.lean ====
section
/-! DEFINITION. The named operations over the state that the meanings share: the pending buffer and the
absorb step (41_streaming R110, R111), padding (R116), the bodies of INIT, UPDATE and FINALIZE (R112,
R113, R117, shared with HASH, R118), responding, and raising InvalidState, the engine's only error
(60_exceptions R140; there is no trap entry and no return from one, R145, R146). -/

namespace Sys2Proof.Machine

/-- The 2-bit encoding of PHASE (R27). No command reads it. -/
def Phase.code : Phase → BitVec 2
  | .empty => 0b00
  | .accumulating => 0b01
  | .finalized => 0b10

/-- BUF after the engine's `n`-th event that leaves it unspecified: 64 free bytes (R24, D27). -/
def dontCareBuffer (id n : Nat) : Block :=
  ⟨((List.range 64).map (Config.dontCareByte id n)).toArray, by simp⟩

/-- The pending bytes BUF[0..CNT), in stream order (R24). -/
def Engine.pending (e : Engine) : List Byte := e.buf.toList.take e.cnt.val

/-- absorb(x) (R110): BUF[CNT] <- x, CNT <- CNT + 1, and when CNT reaches 64 the block goes through
BlockCompressor and the buffer is drained, which leaves its bytes unspecified (R24). -/
def Engine.absorb (e : Engine) (x : Byte) : Engine :=
  if hfull : e.cnt.val + 1 = 64 then
    { e with
      h := compress e.h (e.buf.set e.cnt.val x)
      buf := dontCareBuffer e.id e.draws
      cnt := 0
      draws := e.draws + 1 }
  else
    { e with
      buf := e.buf.set e.cnt.val x
      cnt := ⟨e.cnt.val + 1, by omega⟩ }

/-- absorb_all(s): absorb of each byte in order (R111). -/
def Engine.absorbAll (e : Engine) (s : List Byte) : Engine := s.foldl Engine.absorb e

/-- padding(c, T): the marker 0x80, then z = (55 − c) mod 64 zero bytes, then the bit count T · 8 as 8
big-endian bytes (R116, R42). `119 − c` is `55 − c + 64`, which is not negative for c ≤ 63. -/
def padding (c : Fin 64) (total : BitVec 64) : List Byte :=
  [padMarker] ++ List.replicate ((119 - c.val) % 64) 0 ++ unbe64 (total * 8)

/-- The body of INIT (R112): H <- IV, TOTAL <- 0, CNT <- 0, PHASE <- Empty; "BUF bytes become
don't-care". -/
def Engine.startMessage (e : Engine) : Engine :=
  { e with
    h := initialState
    buf := dontCareBuffer e.id e.draws
    cnt := 0
    total := 0
    phase := .empty
    draws := e.draws + 1 }

/-- The body of UPDATE (R113): TOTAL <- TOTAL + LEN, absorb_all(DATA), PHASE <- Accumulating. -/
def Engine.append (e : Engine) (data : List Byte) : Engine :=
  { ({ e with total := e.total + BitVec.ofNat 64 data.length }).absorbAll data with
    phase := .accumulating }

/-- The body of FINALIZE (R117): absorb_all(padding(CNT, TOTAL)), PHASE <- Finalized; TOTAL is not
incremented by the padding (D12). -/
def Engine.finish (e : Engine) : Engine :=
  { e.absorbAll (padding e.cnt e.total) with phase := .finalized }

/-- Reset of an instance (R160): (1) the state components as in R37, BUF unspecified; (2) the partly
received frame is discarded, the next byte is an opcode; (3) the response being emitted is abandoned.
What the host has accepted, and whether it accepts, is the host's. -/
def Engine.assertReset (e : Engine) : Engine :=
  { e.startMessage with cmdPort := [], rspPending := [] }

/-- The host takes the response as far as it accepts it: all of it while it is ready (R166, R167). -/
def Engine.deliver (e : Engine) : Engine :=
  if e.hostReady then { e with rspPort := e.rspPort ++ e.rspPending, rspPending := [] } else e

/-- The host accepts `n` bytes of the response being emitted (R167). -/
def Engine.acceptBytes (n : Nat) (e : Engine) : Engine :=
  { e with rspPort := e.rspPort ++ e.rspPending.take n, rspPending := e.rspPending.drop n }

/-- An operation on the instance whose step it is; every other instance is untouched (R38, R49). -/
def State.onSelf (f : Engine → Engine) (s : State) : State := { s with self := f s.self }

/-- All instances in the order of their index (R151). -/
def State.engines (s : State) : List Engine := s.before ++ s.self :: s.after

/-- The platform with the instance of index `k` as the next to move; none if there is no such index. -/
def State.focus (k : Nat) (s : State) : Option State :=
  match s.engines[k]? with
  | some e =>
    some { s with before := s.engines.take k, self := e, after := s.engines.drop (k + 1) }
  | none => none

/-- respond(status, payload) (R14): emit one response frame (R67) and end the command. -/
def respond (status : Status) (payload : List Byte) (s : State) :
    Host.Outcome State Fault Refusal :=
  .next (s.onSelf (fun e => { e with rspPending := e.rspPending ++ responseFrame status payload }))

/-- raise InvalidState: respond INVALID_STATE with no payload, no state component written (R14, R140).
The command after it is taken normally, in the unchanged state (R146). -/
def raiseInvalidState (s : State) : Host.Outcome State Fault Refusal := respond .invalidState [] s

end Sys2Proof.Machine
end

