-- ==== Sys2Proof/Machine/BlockCommand.lean ====
section
/-! DEFINITION. The COMPRESS command (40_compressor R95). -/

namespace Sys2Proof.Machine

/-- COMPRESS (R95): respond with the words of compress(S, BLOCK); no component of the instance state is
read or written, in any phase. -/
def execCompress (state : HState) (block : Block) (s : State) : Host.Outcome State Fault Refusal :=
  respond .ok (serialise (compress state block)) s

end Sys2Proof.Machine
end

