-- ==== Sys2Proof/Machine/Streaming.lean ====
section
/-! DEFINITION. The StreamingDigest commands INIT, UPDATE, FINALIZE and HASH (41_streaming). -/

namespace Sys2Proof.Machine

/-- INIT (R112): legal in every phase. -/
def execInit (s : State) : Host.Outcome State Fault Refusal :=
  respond .ok [] (s.onSelf Engine.startMessage)

/-- UPDATE (R113): the phase check first (R143), then the length check with the exact sum, then the
data. -/
def execUpdate (data : List Byte) (s : State) : Host.Outcome State Fault Refusal :=
  if s.self.phase = .finalized then raiseInvalidState s
  else if maxTotal < s.self.total.toNat + data.length then .refused .lengthCeiling
  else respond .ok [] (s.onSelf (fun e => e.append data))

/-- FINALIZE (R117): the phase check, then pad, compress the tail and return the digest. -/
def execFinalize (s : State) : Host.Outcome State Fault Refusal :=
  if s.self.phase = .finalized then raiseInvalidState s
  else respond .ok (serialise s.self.finish.h) (s.onSelf Engine.finish)

/-- The instance after HASH: the bodies of INIT, UPDATE and FINALIZE (R118). -/
def Engine.hashMessage (e : Engine) (data : List Byte) : Engine :=
  (e.startMessage.append data).finish

/-- HASH (R118): no phase check (R143), one response. -/
def execHash (data : List Byte) (s : State) : Host.Outcome State Fault Refusal :=
  if maxTotal < data.length then .refused .lengthCeiling
  else
    respond .ok (serialise (s.self.hashMessage data).h) (s.onSelf (fun e => e.hashMessage data))

end Sys2Proof.Machine
end

