-- ==== Sys2Proof/WellFormed.lean ====
section
/-! DEFINITION. Which commands have a frame: LEN is an unsigned 64-bit field (30_encoding R62), so
DATA has fewer than 2^64 bytes. The semantic ceiling MAX_TOTAL is no matter of form (R62: "The
encoding puts no limit on LEN"): the meanings of UPDATE and HASH check it. -/

namespace Sys2Proof

/-- LEN, the length of `data`, fits its 64-bit field: 0 ≤ LEN ≤ 2^64 − 1 (R62). -/
def lenFits (data : List Byte) : Bool := decide (data.length < 2 ^ 64)

/-- The command has a frame (R61, R62, R63). -/
def Instr.wf : Instr → Bool
  | .init => true
  | .update data => lenFits data
  | .finalize => true
  | .hash data => lenFits data
  | .compress _ _ => true

end Sys2Proof
end

