-- ==== Sys2Proof/Decode.lean ====
section
/-! DEFINITION. The command frames of 30_encoding: the opcode map (R64, R65), the three formats (R61),
frame length decoding (R66), the decoder, the encoder, and the opcode table's own numbering of a
frame's bits. -/

namespace Sys2Proof

open Sys2Proof.Machine

/-- The three frame formats (R61). -/
inductive Format where
  /-- bare: the opcode byte alone -/
  | f0
  /-- length and data -/
  | fl
  /-- state and block -/
  | fc
  deriving DecidableEq, Repr

/-- The five defined opcodes (R64). -/
inductive Opcode where
  | init
  | update
  | finalize
  | hash
  | compress
  deriving DecidableEq, Repr

/-- The opcode byte OPC of each command (R64). -/
def Opcode.byte : Opcode → Byte
  | .init => 0x01
  | .update => 0x02
  | .finalize => 0x03
  | .hash => 0x04
  | .compress => 0x05

/-- The format of each command (R64). -/
def Opcode.format : Opcode → Format
  | .init => .f0
  | .update => .fl
  | .finalize => .f0
  | .hash => .fl
  | .compress => .fc

/-- The defined opcodes of a build. "A build of the engine without COMPRESS … treats 0x05 as reserved
too" (R65, decision D6). -/
def Opcode.defined (hasCompress : Bool) : List Opcode :=
  if hasCompress then [.init, .update, .finalize, .hash, .compress]
  else [.init, .update, .finalize, .hash]

/-- The opcode is decoded from all 8 bits of frame byte 0 (R64); none for a reserved value (R65). -/
def Opcode.ofByte (hasCompress : Bool) (b : Byte) : Option Opcode :=
  (Opcode.defined hasCompress).find? (fun o => o.byte == b)

/-- What the front of a command stream is, read as a frame. -/
inductive Decoded where
  /-- a complete frame of this command, and the bytes after it -/
  | command (i : Instr) (rest : List Byte)
  /-- fewer bytes than the frame has: it has no step yet (R66, R167) -/
  | incomplete
  /-- frame byte 0 is a reserved opcode: it spells no command and has no length (R65) -/
  | reserved (opc : Byte)
  deriving DecidableEq, Repr

/-- A format FL frame after its opcode: LEN and DATA (R61, R62). -/
def decodeData (make : List Byte → Instr) (bs : List Byte) : Decoded :=
  match readData bs with
  | some (data, rest) => .command (make data) rest
  | none => .incomplete

/-- A format FC frame after its opcode: STATE and BLOCK (R61, R63). -/
def decodeState (bs : List Byte) : Decoded :=
  match readState bs with
  | some (s, bs) =>
    match readBlock bs with
    | some (b, rest) => .command (.compress s b) rest
    | none => .incomplete
  | none => .incomplete

/-- The decoder of a build: the front of the byte sequence as a frame (R61 to R66). The opcode comes
first, before any operand is known (R143). -/
def decodeWith (hasCompress : Bool) : List Byte → Decoded
  | [] => .incomplete
  | opc :: bs =>
    match Opcode.ofByte hasCompress opc with
    | some .init => .command .init bs
    | some .update => decodeData .update bs
    | some .finalize => .command .finalize bs
    | some .hash => decodeData .hash bs
    | some .compress => decodeState bs
    | none => .reserved opc

/-- The decoder of the engine this spec describes, with all five commands (R64). -/
def decode : List Byte → Decoded := decodeWith true

/-- What is known of a frame's length (R66). -/
inductive FrameLength where
  /-- the frame has this many bytes -/
  | known (n : Nat)
  /-- not enough bytes to know it: none at all, or format FL with fewer than 9 -/
  | unknown
  /-- a reserved opcode: no length is defined (R65) -/
  | reserved (opc : Byte)
  deriving DecidableEq, Repr

/-- decode_length (R66): 1 for format F0, 9 + LEN for FL, 97 for FC. -/
def decodeLength (hasCompress : Bool) : List Byte → FrameLength
  | [] => .unknown
  | opc :: bs =>
    match Opcode.ofByte hasCompress opc with
    | none => .reserved opc
    | some o =>
      match o.format with
      | .f0 => .known 1
      | .fl =>
        match readLen bs with
        | some (len, _) => .known (9 + len)
        | none => .unknown
      | .fc => .known 97

/-- The opcode of a command (R64). -/
def Instr.opcode : Instr → Opcode
  | .init => .init
  | .update _ => .update
  | .finalize => .finalize
  | .hash _ => .hash
  | .compress _ _ => .compress

/-- The operand bytes of a command's frame: LEN and DATA (R62), or STATE and BLOCK (R63). -/
def Instr.operandBytes : Instr → List Byte
  | .init => []
  | .update data => unbe64 (BitVec.ofNat 64 data.length) ++ data
  | .finalize => []
  | .hash data => unbe64 (BitVec.ofNat 64 data.length) ++ data
  | .compress s b => serialise s ++ b.toList

/-- The command's frame: OPC at frame byte 0, then the operands (R61). Of a command that is not
well-formed (data of 2^64 bytes or more) there is no frame, and nothing is said of this answer. -/
def encode (i : Instr) : List Byte := i.opcode.byte :: i.operandBytes

/-- The bytes of an instruction whose bits the opcode table numbers from bit 0 of the first byte
upwards: the first byte is bits 7..0, the second bits 15..8, and so on. -/
def tableBytes (nbits w : Nat) : List Byte :=
  (List.range ((nbits + 7) / 8)).map (fun k => BitVec.ofNat 8 (w >>> (8 * k)))

/-- The whole frame of that instruction: every bit above `nbits` is 0, as far as the frame goes. A
reserved opcode has no frame, and its bytes stand alone. 97 zero bytes settle every frame's length
(R66 needs 9 bytes at most), and the frame is then filled up with zeros to that length. -/
def tableFrame (nbits w : Nat) : List Byte :=
  match decodeLength true (tableBytes nbits w ++ List.replicate 97 0) with
  | .known n => (tableBytes nbits w ++ List.replicate n 0).take n
  | _ => tableBytes nbits w

/-- The instruction the decoder reads from the table's bits `w` (zeros above `nbits`). -/
def decodeTableWord (nbits w : Nat) : Option Instr :=
  match decode (tableFrame nbits w) with
  | .command i _ => some i
  | _ => none

end Sys2Proof
end

