-- ==== Sys2Proof/Machine/Fetch.lean ====
section
/-! DEFINITION. Taking a command frame from an instance's command port (30_encoding R60, R66; 70_reset
R163, R167), and placing a frame there. -/

namespace Sys2Proof.Machine

/-- What the command port offers. -/
inductive Fetched where
  /-- a complete, contiguous frame, and what the port holds after it -/
  | command (i : Instr) (rest : List PortByte)
  /-- no complete frame yet (R66) -/
  | waiting
  /-- a reserved opcode (R65) -/
  | reserved
  /-- bytes of more than one transmission inside one frame (R142) -/
  | concurrent
  deriving DecidableEq, Repr

/-- The bytes of a command port, without the model's tags. -/
def portBytes (port : List PortByte) : List Byte := port.map (·.byte)

/-- The bytes do not all belong to one transmission: "frames of two hosts interleaved … or a second
frame started before the first is complete" (R142). -/
def interleaved : List PortByte → Bool
  | [] => false
  | p :: ps => ps.any (fun q => q.tx != p.tx)

/-- The next command of the port. A reserved opcode is found first, from byte 0 alone (R143); then
whether the frame is whole and contiguous (R163), as far as its bytes have arrived. -/
def fetch (hasCompress : Bool) (port : List PortByte) : Fetched :=
  match decodeWith hasCompress (portBytes port) with
  | .reserved _ => .reserved
  | .incomplete => if interleaved port then .concurrent else .waiting
  | .command i rest =>
    if interleaved (port.take (port.length - rest.length)) then .concurrent
    else .command i (port.drop (port.length - rest.length))

/-- Bytes as one transmission carries them to a command port. -/
def sentBytes (tx : Nat) (bytes : List Byte) : List PortByte :=
  bytes.map (fun b => { tx := tx, byte := b })

/-- `s` with the frame `bytes`, sent as one transmission, in front of what the command port of the
instance to move holds, and with nothing that would come before its step: no input, no response the
host has not accepted. -/
def placeFrame (bytes : List Byte) (s : State) : State :=
  { s with
    self :=
      { s.self with
        cmdPort := sentBytes 0 bytes ++ s.self.cmdPort
        rspPending := [] }
    inputs := [] }

end Sys2Proof.Machine
end

