-- ==== Sys2Proof/Machine/Run.lean ====
section
/-! DEFINITION. One step of the platform: the next input from outside (the host and the platform at the
ports), or, when none is left, the next command of the instance whose turn it is: one that has a step,
if any has. -/

namespace Sys2Proof.Machine

/-- After a command the host takes the response, if it accepts it (R166, R167). -/
def afterCommand : Host.Outcome State Fault Refusal → Host.Outcome State Fault Refusal
  | .next s => .next (s.onSelf Engine.deliver)
  | .fault r => .fault r
  | .refused r => .refused r

/-- One command of the instance whose turn it is, as one atomic step (R48): take its frame from the
port, run it, and hand its response to the host. The instance has no step while its response before
is not accepted, or while its frame is incomplete (R167). -/
def runCommand (s : State) : Host.Outcome State Fault Refusal :=
  if s.self.rspPending ≠ [] then .fault .responseNotAccepted
  else
    match fetch s.hasCompress s.self.cmdPort with
    | .command i rest => afterCommand (exec i (s.onSelf (fun e => { e with cmdPort := rest })))
    | .waiting => .fault .frameIncomplete
    | .reserved => .refused .reservedOpcode
    | .concurrent => .refused .concurrentAccess

/-- A turn given to an instance: its next command, or nothing while it has no step (R51, R167). -/
def takeTurn (s : State) : Host.Outcome State Fault Refusal :=
  match runCommand s with
  | .next t => .next t
  | .fault _ => .next s
  | .refused r => .refused r

/-- What happens at the ports of the instance whose index the input names (it is `s.self`). -/
def portAction (a : PortAction) (s : State) : Host.Outcome State Fault Refusal :=
  match a with
  | .send tx bytes =>
    .next (s.onSelf (fun e => { e with cmdPort := e.cmdPort ++ sentBytes tx bytes }))
  | .accept n => .next (s.onSelf (Engine.acceptBytes n))
  | .ready on => .next (s.onSelf (fun e => ({ e with hostReady := on }).deliver))
  | .reset => .next (s.onSelf Engine.assertReset)
  | .run => takeTurn s

/-- Power-on resets every instance (R160, R153). -/
def State.powerOn (s : State) : State :=
  { s with
    before := s.before.map Engine.assertReset
    self := s.self.assertReset
    after := s.after.map Engine.assertReset }

/-- One input from outside. -/
def takeInput (ev : Event) (s : State) : Host.Outcome State Fault Refusal :=
  match ev with
  | .powerOn => .next s.powerOn
  | .port k a =>
    match s.focus k with
    | some s => portAction a s
    | none => .fault .noSuchInstance

/-- The instance has no enabled step: its response before is not accepted, or its port holds no
complete frame (R167). -/
def Engine.waits (hasCompress : Bool) (e : Engine) : Bool :=
  match e.rspPending, fetch hasCompress e.cmdPort with
  | _ :: _, _ => true
  | [], .waiting => true
  | [], _ => false

/-- The index of the instance that moves when no input is left: `self` while it has an enabled step,
else the first instance that has one, and `self` again when none has. No instance that has a step is
kept waiting by one that has none (R51, R166; which of several moves first is the model's choice, log
entry 4). -/
def State.turn (s : State) : Nat :=
  if s.self.waits s.hasCompress then
    (s.engines.findIdx? (fun e => !e.waits s.hasCompress)).getD s.before.length
  else s.before.length

/-- The platform with that instance as the one to move. -/
def State.giveTurn (s : State) : State := (s.focus s.turn).getD s

/-- One step. -/
def stepPlatform (s : State) : Host.Outcome State Fault Refusal :=
  match s.inputs with
  | [] => runCommand s.giveTurn
  | ev :: rest => takeInput ev { s with inputs := rest }

end Sys2Proof.Machine
end

