-- ==== Sys2Proof/Machine/Step.lean ====
section
/-! DEFINITION. The step of the machine, and how a table word is placed for the next step. -/

namespace Sys2Proof.Machine

/-- One step of the machine. -/
def step (s : State) : Host.Outcome State Fault Refusal := stepPlatform s

/-- `s` with the opcode table's instruction where the step takes its next command: in front of the
command port of the instance to move (log entry 10 says how commands come to run from reset). -/
def State.withFetchWord (s : State) (nbits w : Nat) : State := placeFrame (tableFrame nbits w) s

end Sys2Proof.Machine
end

