-- ==== Sys2Proof/Machine/Assembly.lean ====
section
/-! DEFINITION. The textual syntax of 30_encoding R70 and R71: one command a line, and the command stream
a text stands for. No step uses it: it is how programs are written down. A text is a list of
characters; `none` is an assembly error. -/

namespace Sys2Proof.Machine

/-- The pieces a line is cut into. -/
inductive Token where
  /-- a mnemonic, `IV`, a word `0x…` or a repeat count: letters and digits -/
  | name (chars : List Char)
  /-- a string literal `"…"` or a hex string `x"…"`: the bytes it stands for -/
  | bytes (bs : List Byte)
  /-- `++` -/
  | plusPlus
  /-- `*` -/
  | star
  /-- `,` -/
  | comma
  /-- the brace that opens a state literal -/
  | openBrace
  /-- the brace that closes a state literal -/
  | closeBrace
  deriving DecidableEq, Repr

/-- The double quote, the backslash and the two braces. -/
def quoteChar : Char := Char.ofNat 34
def backslashChar : Char := Char.ofNat 92
def openBraceChar : Char := Char.ofNat 123
def closeBraceChar : Char := Char.ofNat 125

/-- The value of a hex digit, either case. -/
def hexDigit (c : Char) : Option Nat :=
  if '0' ≤ c ∧ c ≤ '9' then some (c.toNat - 48)
  else if 'a' ≤ c ∧ c ≤ 'f' then some (c.toNat - 87)
  else if 'A' ≤ c ∧ c ≤ 'F' then some (c.toNat - 55)
  else none

/-- The value of a decimal digit. -/
def decDigit (c : Char) : Option Nat :=
  if '0' ≤ c ∧ c ≤ '9' then some (c.toNat - 48) else none

/-- The number written by at least one digit of the given base, most significant first. -/
def digitsValue (base : Nat) (digit : Char → Option Nat) : List Char → Option Nat
  | [] => none
  | cs => cs.foldl (fun acc c => do return (← acc) * base + (← digit c)) (some 0)

/-- A word literal: `0x` and hex digits, at most 0xFFFFFFFF (R71). -/
def wordLiteral : List Char → Option Word
  | '0' :: 'x' :: ds =>
    match digitsValue 16 hexDigit ds with
    | some v => if v < 2 ^ 32 then some (BitVec.ofNat 32 v) else none
    | none => none
  | _ => none

/-- A character of a mnemonic, keyword or number. -/
def nameChar (c : Char) : Bool :=
  ('0' ≤ c && c ≤ '9') || ('a' ≤ c && c ≤ 'z') || ('A' ≤ c && c ≤ 'Z')

/-- A hex string after its opening quote: an even number of hex digits, two a byte, first byte first,
up to the closing quote (R71). -/
def hexString : List Char → Option (List Byte × List Char)
  | [] => none
  | [c] => if c = quoteChar then some ([], []) else none
  | c :: d :: rest =>
    if c = quoteChar then some ([], d :: rest)
    else do
      let hi ← hexDigit c
      let lo ← hexDigit d
      let (bs, rest) ← hexString rest
      return (BitVec.ofNat 8 (16 * hi + lo) :: bs, rest)

/-- What stands after a backslash in a string: `\\`, `\"` and `\xHH` (R71). -/
def escaped : List Char → Option (Byte × List Char)
  | c :: rest =>
    if c = backslashChar ∨ c = quoteChar then some (BitVec.ofNat 8 c.toNat, rest)
    else if c = 'x' then
      match rest with
      | h :: l :: rest => do
        let hi ← hexDigit h
        let lo ← hexDigit l
        return (BitVec.ofNat 8 (16 * hi + lo), rest)
      | _ => none
    else none
  | [] => none

/-- An ASCII string after its opening quote: one byte a character, with the escapes, up to the closing
quote (R71). `fuel` is a bound on the number of characters. -/
def asciiString : Nat → List Char → Option (List Byte × List Char)
  | 0, _ => none
  | _ + 1, [] => none
  | fuel + 1, c :: rest =>
    if c = quoteChar then some ([], rest)
    else if c = backslashChar then do
      let (b, rest) ← escaped rest
      let (bs, rest) ← asciiString fuel rest
      return (b :: bs, rest)
    else if c.toNat < 128 then do
      let (bs, rest) ← asciiString fuel rest
      return (BitVec.ofNat 8 c.toNat :: bs, rest)
    else none

/-- The tokens of a line; `;` outside a string begins a comment that runs to the end (R70). -/
def lexLine : Nat → List Char → Option (List Token)
  | 0, cs => if cs = [] then some [] else none
  | _ + 1, [] => some []
  | fuel + 1, c :: rest =>
    if c = ';' then some []
    else if c = ' ' ∨ c = '\t' ∨ c = '\r' then lexLine fuel rest
    else if c = ',' then do return .comma :: (← lexLine fuel rest)
    else if c = '*' then do return .star :: (← lexLine fuel rest)
    else if c = openBraceChar then do return .openBrace :: (← lexLine fuel rest)
    else if c = closeBraceChar then do return .closeBrace :: (← lexLine fuel rest)
    else if c = '+' ∧ rest.head? = some '+' then do return .plusPlus :: (← lexLine fuel rest.tail)
    else if c = quoteChar then do
      let (bs, rest) ← asciiString (fuel + 1) rest
      return .bytes bs :: (← lexLine fuel rest)
    else if c = 'x' ∧ rest.head? = some quoteChar then do
      let (bs, rest) ← hexString rest.tail
      return .bytes bs :: (← lexLine fuel rest)
    else if nameChar c then do
      return .name (c :: rest.takeWhile nameChar) :: (← lexLine fuel (rest.dropWhile nameChar))
    else none

/-- A `<data>` or `<block>` literal: pieces joined by `++`, each repeated N times where `*N` follows it
(R71). -/
def dataLiteral : List Token → Option (List Byte)
  | [.bytes bs] => some bs
  | [.bytes bs, .star, .name n] => do
    let k ← digitsValue 10 decDigit n
    return (List.replicate k bs).flatten
  | .bytes bs :: .plusPlus :: rest => do return bs ++ (← dataLiteral rest)
  | .bytes bs :: .star :: .name n :: .plusPlus :: rest => do
    let k ← digitsValue 10 decDigit n
    return (List.replicate k bs).flatten ++ (← dataLiteral rest)
  | _ => none

/-- A `<state>` literal and the tokens after it: `IV`, or eight words in braces (R71). -/
def stateLiteral : List Token → Option (HState × List Token)
  | .name ['I', 'V'] :: rest => some (initialState, rest)
  | .openBrace :: .name w0 :: .comma :: .name w1 :: .comma :: .name w2 :: .comma :: .name w3 ::
      .comma :: .name w4 :: .comma :: .name w5 :: .comma :: .name w6 :: .comma :: .name w7 ::
      .closeBrace :: rest => do
    let s : HState :=
      { h0 := ← wordLiteral w0, h1 := ← wordLiteral w1, h2 := ← wordLiteral w2,
        h3 := ← wordLiteral w3, h4 := ← wordLiteral w4, h5 := ← wordLiteral w5,
        h6 := ← wordLiteral w6, h7 := ← wordLiteral w7 }
    return (s, rest)
  | _ => none

/-- The operands of COMPRESS: a state, a comma, a block of exactly 64 bytes (R70, R71). -/
def compressOperands (ts : List Token) : Option Instr :=
  match stateLiteral ts with
  | some (s, .comma :: rest) =>
    match dataLiteral rest with
    | some bs => if h : bs.length = 64 then some (.compress s ⟨bs.toArray, by simp [h]⟩) else none
    | none => none
  | _ => none

/-- UPDATE or HASH of a data literal. A literal of 2^64 bytes or more is an assembly error: no LEN of 64
bits is its length (R62). R70 and R71 do not say what the assembler does with it: DESIGN CHOICE, log
entry 15. -/
def dataCommand (make : List Byte → Instr) (ts : List Token) : Option Instr :=
  match dataLiteral ts with
  | some data => if lenFits data then some (make data) else none
  | none => none

/-- The command a line's tokens spell; no command for a blank line (R70). Any other operands, and any
other name, are an assembly error (R71); so is a data literal too long for LEN (DESIGN CHOICE, log
entry 15). -/
def commandOfTokens : List Token → Option (Option Instr)
  | [] => some none
  | [.name ['I', 'N', 'I', 'T']] => some (some .init)
  | [.name ['F', 'I', 'N', 'A', 'L', 'I', 'Z', 'E']] => some (some .finalize)
  | .name ['U', 'P', 'D', 'A', 'T', 'E'] :: ts => (dataCommand .update ts).map some
  | .name ['H', 'A', 'S', 'H'] :: ts => (dataCommand .hash ts).map some
  | .name ['C', 'O', 'M', 'P', 'R', 'E', 'S', 'S'] :: ts => (compressOperands ts).map some
  | _ => none

/-- One line of a program (R70). -/
def assembleLine (line : List Char) : Option (Option Instr) :=
  match lexLine line.length line with
  | some ts => commandOfTokens ts
  | none => none

/-- A program, line by line: its commands in order, or an assembly error. -/
def assemble : List (List Char) → Option (List Instr)
  | [] => some []
  | line :: lines => do
    let i ← assembleLine line
    let is ← assemble lines
    return i.toList ++ is

/-- The command stream: the frames laid end to end, with no separators and no padding (R60). -/
def commandStream (is : List Instr) : List Byte := is.flatMap encode

end Sys2Proof.Machine
end

