-- ==== Sys2Proof/Machine/Digest.lean ====
section
/-! DEFINITION. The closed form of the digest (41_streaming R119): the blocks of a byte sequence, the
padded message, and what the engine's streaming commands must compute. No command calls it: it is
what the commands are held to. -/

namespace Sys2Proof.Machine

/-- The `i`-th 64-byte block of a byte sequence: message byte n lands in block ⌊n/64⌋ at offset n mod
64 (R46). Used for whole blocks only. -/
def blockAt (m : List Byte) (i : Nat) : Block :=
  ⟨((List.range 64).map (fun j => m.getD (64 * i + j) 0)).toArray, by simp⟩

/-- The whole 64-byte blocks of a byte sequence, in order (R119); ⌊len/64⌋ of them. -/
def blocksOf (m : List Byte) : List Block := (List.range (m.length / 64)).map (blockAt m)

/-- The bytes after the last whole block, fewer than 64 (R24: "the last CNT message bytes absorbed
since the last full block"). -/
def leftover (m : List Byte) : List Byte := m.drop (64 * (m.length / 64))

/-- tail(m) = m ++ padding(len(m) mod 64, len(m)) (R119). -/
def paddedMessage (m : List Byte) : List Byte :=
  m ++ padding (Fin.ofNat 64 m.length) (BitVec.ofNat 64 m.length)

/-- The state words of the digest: compressN(IV, blocks(tail(m))) (R119). -/
def digestState (m : List Byte) : HState := compressN initialState (blocksOf (paddedMessage m))

/-- digest(m) = serialise(compressN(IV, blocks(tail(m)))) (R119). -/
def digest (m : List Byte) : List Byte := serialise (digestState m)

end Sys2Proof.Machine
end

