-- ==== Sys2Proof/Safety.lean ====
section
/-! DEFINITION. What counts as a state the engine can be in, in the terms the statements use: the phase
invariants of 10_state R29 (with the message they speak of), the ports' invariant, and equality of two
instances up to the bytes no rule reads (R24). -/

namespace Sys2Proof.Machine

/-- The instance holds message `m`, the bytes absorbed since the last INIT or reset, as R29 says:
TOTAL is its length, at most MAX_TOTAL (R7); in Empty it is empty; in Empty and Accumulating H is the
state after its whole blocks, CNT is TOTAL mod 64 and BUF[0..CNT) are its last CNT bytes (R24); in
Finalized CNT = 0 and H holds the digest words. -/
def Engine.Holds (e : Engine) (m : List Byte) : Prop :=
  m.length ≤ maxTotal ∧ e.total.toNat = m.length ∧
  match e.phase with
  | .empty => m = [] ∧ e.h = initialState ∧ e.cnt.val = 0
  | .accumulating =>
    e.h = compressN initialState (blocksOf m) ∧ e.cnt.val = m.length % 64 ∧ e.pending = leftover m
  | .finalized => e.h = digestState m ∧ e.cnt.val = 0

/-- The response of a host that accepts is never left pending at a command boundary (R166). -/
def Engine.Delivered (e : Engine) : Prop := e.hostReady = true → e.rspPending = []

/-- The invariant of one instance at a command boundary (R25, R26, R29). -/
def Engine.Inv (e : Engine) : Prop := (∃ m, e.Holds m) ∧ e.Delivered

/-- Every instance of the platform meets its invariant. -/
def State.Inv (s : State) : Prop := ∀ e ∈ s.engines, e.Inv

/-- The command would take TOTAL past MAX_TOTAL, so that the spec gives it no meaning: LengthCeiling of
R142. For UPDATE only outside Finalized, because the phase check comes first (R143). -/
def overCeiling (i : Instr) (e : Engine) : Prop :=
  match i with
  | .update data => e.phase ≠ .finalized ∧ maxTotal < e.total.toNat + data.length
  | .hash data => maxTotal < data.length
  | .init | .finalize | .compress _ _ => False

/-- The response frames a command can have (R67, R68, R140, R141): INIT answers OK; UPDATE answers OK
or INVALID_STATE; FINALIZE answers OK with 32 bytes, or INVALID_STATE; HASH and COMPRESS answer OK
with 32 bytes. -/
def ResponseFormat (i : Instr) (frame : List Byte) : Prop :=
  match i with
  | .init => frame = [0x00]
  | .update _ => frame = [0x00] ∨ frame = [0x01]
  | .finalize => frame = [0x01] ∨ ∃ payload, payload.length = 32 ∧ frame = 0x00 :: payload
  | .hash _ | .compress _ _ => ∃ payload, payload.length = 32 ∧ frame = 0x00 :: payload

/-- Commands of one instance one after another, in port order (R50), stopping at the first that gives
no next state. -/
def execAll : List Instr → State → Host.Outcome State Fault Refusal
  | [], s => .next s
  | i :: is, s =>
    match exec i s with
    | .next t => execAll is t
    | .fault r => .fault r
    | .refused r => .refused r

/-- The step from `s` is a turn of the instance with index `k`: no input is left and it is the one to
move, or the next input gives it its turn. -/
def TurnOf (s : State) (k : Nat) : Prop :=
  (s.inputs = [] ∧ k = s.turn) ∨ s.inputs.head? = some (.port k .run)

/-- Two instances agree on all that a command can read: H, CNT, TOTAL, PHASE and BUF[0..CNT) (R24: no
rule reads the rest of BUF). -/
def Engine.SameMessageState (e f : Engine) : Prop :=
  e.h = f.h ∧ e.cnt = f.cnt ∧ e.total = f.total ∧ e.phase = f.phase ∧ e.pending = f.pending

/-- Two instances agree on their ports: what the command port holds, what is being emitted, what the
host has accepted, whether it accepts. -/
def Engine.SamePorts (e f : Engine) : Prop :=
  e.cmdPort = f.cmdPort ∧ e.rspPending = f.rspPending ∧ e.rspPort = f.rspPort ∧
    e.hostReady = f.hostReady

end Sys2Proof.Machine
end

