-- ==== Sys2Proof/Certificates/Slice0/Obligations.lean ====
section
/-! DEFINITION. The statements for the provers, from the numbered rules of spec/. In a result statement the
next state is written as the old one with the fields the rule writes, so that every field not named
is unchanged (the frame). The don't-care bytes of BUF and the count of free values drawn (log entry
2) are bound by an existential there: any value, no statement rests on one. -/

open Sys2Proof Sys2Proof.Machine

/-! ### Encoding (30_encoding) -/

/-- Frames written out byte by byte from R61 to R65 (and the rows of 95_test_vectors L2-E) decode to
the commands they stand for; LEN 0000000000000100 is 256, big-endian. -/
def Obligations.SpecFramesDecode : Prop :=
  decode [0x01] = .command .init [] ∧
  decode [0x03] = .command .finalize [] ∧
  decode [0x02, 0, 0, 0, 0, 0, 0, 0, 0] = .command (.update []) [] ∧
  decode [0x02, 0, 0, 0, 0, 0, 0, 0, 3, 0x61, 0x62, 0x63] =
    .command (.update [0x61, 0x62, 0x63]) [] ∧
  decode [0x04, 0, 0, 0, 0, 0, 0, 0, 3, 0x61, 0x62, 0x63] =
    .command (.hash [0x61, 0x62, 0x63]) [] ∧
  decode ([0x04, 0, 0, 0, 0, 0, 0, 1, 0] ++ List.replicate 256 0xaa) =
    .command (.hash (List.replicate 256 0xaa)) [] ∧
  decode ([0x05,
      0x6a, 0x09, 0xe6, 0x67, 0xbb, 0x67, 0xae, 0x85, 0x3c, 0x6e, 0xf3, 0x72, 0xa5, 0x4f, 0xf5, 0x3a,
      0x51, 0x0e, 0x52, 0x7f, 0x9b, 0x05, 0x68, 0x8c, 0x1f, 0x83, 0xd9, 0xab, 0x5b, 0xe0, 0xcd, 0x19] ++
      [0x61, 0x62, 0x63, 0x80] ++ List.replicate 59 0 ++ [0x18]) =
    .command (.compress initialState
      ((((((Vector.replicate 64 0).set 0 0x61).set 1 0x62).set 2 0x63).set 3 0x80).set 63 0x18)) [] ∧
  decode [0x00] = .reserved 0x00 ∧ decode [0x06] = .reserved 0x06 ∧ decode [0xff] = .reserved 0xff

/-- 30_encoding §1, §2: decoding the frame of any well-formed command the build defines gives the
command back, with every operand at every value its field admits, and leaves the bytes after the
frame. -/
def Obligations.DecodeOfEncode : Prop :=
  ∀ (hasCompress : Bool) (i : Instr) (rest : List Byte), i.wf = true →
    i.opcode ∈ Opcode.defined hasCompress →
    decodeWith hasCompress (encode i ++ rest) = .command i rest

/-- The other direction: what decodes to a command is that command's frame and the bytes after it,
so every frame has one spelling, and the command is well-formed and defined in the build. -/
def Obligations.EncodeOfDecode : Prop :=
  ∀ (hasCompress : Bool) (bs : List Byte) (i : Instr) (rest : List Byte),
    decodeWith hasCompress bs = .command i rest →
      bs = encode i ++ rest ∧ i.wf = true ∧ i.opcode ∈ Opcode.defined hasCompress

/-- R65: the reserved opcodes are 0x00 and 0x06 to 0xFF, and 0x05 in a build without COMPRESS; a
frame that begins with one is refused whatever follows it, and the machine does not continue: on no
turn of any instance, whichever has the turn, with no input left or given by an input. -/
def Obligations.ReservedOpcodesRefused : Prop :=
  (∀ (hasCompress : Bool) (opc : Byte) (bs : List Byte),
    decodeWith hasCompress (opc :: bs) = .reserved opc ↔
      (opc = 0x00 ∨ 6 ≤ opc.toNat ∨ (opc = 0x05 ∧ hasCompress = false))) ∧
  (∀ (s : State) (k : Nat) (e : Engine) (p : PortByte) (ps : List PortByte), TurnOf s k →
    s.engines[k]? = some e → e.rspPending = [] → e.cmdPort = p :: ps →
    (p.byte = 0x00 ∨ 6 ≤ p.byte.toNat ∨ (p.byte = 0x05 ∧ s.hasCompress = false)) →
    step s = .refused .reservedOpcode)

/-- 30_encoding §2 "Frame length decoding" (derived there): in every build decode_length is 1 for
0x01 and 0x03, 9 + be64(frame[1..9)) for 0x02 and 0x04 and unknown before those nine bytes are
there, and no length is defined for a reserved opcode; 0x05 has 97 bytes where the build has
COMPRESS, and is reserved where it has not. A frame is complete exactly when that many bytes have
arrived, and then the decoder takes exactly those. -/
def Obligations.FrameLengthDecoding : Prop :=
  ∀ hasCompress : Bool,
    (∀ bs : List Byte,
      decodeLength hasCompress (0x01 :: bs) = .known 1 ∧
      decodeLength hasCompress (0x03 :: bs) = .known 1 ∧
      decodeLength hasCompress (0x05 :: bs) =
        if hasCompress then .known 97 else .reserved 0x05) ∧
    (∀ (b0 b1 b2 b3 b4 b5 b6 b7 : Byte) (bs : List Byte),
      decodeLength hasCompress (0x02 :: b0 :: b1 :: b2 :: b3 :: b4 :: b5 :: b6 :: b7 :: bs) =
        .known (9 + (be64 b0 b1 b2 b3 b4 b5 b6 b7).toNat) ∧
      decodeLength hasCompress (0x04 :: b0 :: b1 :: b2 :: b3 :: b4 :: b5 :: b6 :: b7 :: bs) =
        .known (9 + (be64 b0 b1 b2 b3 b4 b5 b6 b7).toNat)) ∧
    (∀ bs : List Byte, bs.length < 8 →
      decodeLength hasCompress (0x02 :: bs) = .unknown ∧
      decodeLength hasCompress (0x04 :: bs) = .unknown) ∧
    decodeLength hasCompress [] = .unknown ∧
    (∀ (opc : Byte) (bs : List Byte), opc = 0x00 ∨ 6 ≤ opc.toNat →
      decodeLength hasCompress (opc :: bs) = .reserved opc) ∧
    (∀ (bs : List Byte) (n : Nat), decodeLength hasCompress bs = .known n →
      (n ≤ bs.length → ∃ i, decodeWith hasCompress bs = .command i (bs.drop n)) ∧
      (bs.length < n → decodeWith hasCompress bs = .incomplete)) ∧
    (∀ bs : List Byte, decodeLength hasCompress bs = .unknown →
      decodeWith hasCompress bs = .incomplete) ∧
    (∀ (bs : List Byte) (opc : Byte), decodeLength hasCompress bs = .reserved opc →
      decodeWith hasCompress bs = .reserved opc)

/-- R12, R43: be32 and be64 weigh the first byte most, unbe32 and unbe64 are their inverses, and
serialise puts byte k of word i at place 4i + k, most significant first: 32 bytes. -/
def Obligations.ByteOrderIsBigEndian : Prop :=
  (∀ b0 b1 b2 b3 : Byte,
    (be32 b0 b1 b2 b3).toNat =
      b0.toNat * 2 ^ 24 + b1.toNat * 2 ^ 16 + b2.toNat * 2 ^ 8 + b3.toNat ∧
    unbe32 (be32 b0 b1 b2 b3) = [b0, b1, b2, b3]) ∧
  (∀ b0 b1 b2 b3 b4 b5 b6 b7 : Byte,
    (be64 b0 b1 b2 b3 b4 b5 b6 b7).toNat =
      b0.toNat * 2 ^ 56 + b1.toNat * 2 ^ 48 + b2.toNat * 2 ^ 40 + b3.toNat * 2 ^ 32 +
        b4.toNat * 2 ^ 24 + b5.toNat * 2 ^ 16 + b6.toNat * 2 ^ 8 + b7.toNat ∧
    unbe64 (be64 b0 b1 b2 b3 b4 b5 b6 b7) = [b0, b1, b2, b3, b4, b5, b6, b7]) ∧
  (∀ (s : HState) (i : Fin 8) (k : Fin 4),
    (serialise s).length = 32 ∧
    (serialise s)[4 * i.val + k.val]? =
      (s.words[i.val]?).map (fun w => BitVec.ofNat 8 (w.toNat / 2 ^ (8 * (3 - k.val)))))

/-- 30_encoding §1, §4: program P1 of 95_test_vectors L3 as text assembles to the 14-byte command
stream given there; the text with an odd hex string or a block of 63 bytes does not assemble. -/
def Obligations.ProgramTextAssembles : Prop :=
  (assemble ["INIT".toList, "UPDATE \"abc\"  ; three bytes".toList, "FINALIZE".toList]).map
      commandStream =
    some [0x01, 0x02, 0, 0, 0, 0, 0, 0, 0, 3, 0x61, 0x62, 0x63, 0x03] ∧
  assemble ["UPDATE x\"616\"".toList] = none ∧
  assemble ["COMPRESS IV, x\"00\"*63".toList] = none

/-! ### BlockCompressor (40_compressor) -/

/-- rotr moves bit (i + n) mod 32 to bit i; shr is division by 2^n, zero fill. The spec marks both
readings as general knowledge (93_implementation_defined K3, K4; 40_compressor §1, the rules of rotr
and shr), so this is no sentence of the source. -/
def Obligations.RotateAndShift : Prop :=
  (∀ (x : Word) (n i : Nat), 0 < n → n < 32 → i < 32 →
    (rotr x n).getLsbD i = x.getLsbD ((i + n) % 32)) ∧
  (∀ (x : Word) (n : Nat), (shr x n).toNat = x.toNat / 2 ^ n) ∧
  rotr 0x12345678 7 = 0xF02468AC ∧ shr 0x12345678 3 = 0x02468ACF

/-- R83, R84: Ch(x,y,z) = (x ∧ y) ⊕ (¬x ∧ z), each bit y's where x's bit is 1 and z's where it is 0;
Maj(x,y,z) = (x ∧ y) ⊕ (x ∧ z) ⊕ (y ∧ z), each bit the majority of the three; with the corner cases
and the worked examples. -/
def Obligations.ChoiceAndMajority : Prop :=
  (∀ x y z : Word, ch x y z = (x &&& y) ^^^ (~~~x &&& z) ∧
    maj x y z = (x &&& y) ^^^ (x &&& z) ^^^ (y &&& z)) ∧
  (∀ (x y z : Word) (i : Nat), i < 32 →
    (ch x y z).getLsbD i = if x.getLsbD i then y.getLsbD i else z.getLsbD i) ∧
  (∀ (x y z : Word) (i : Nat), i < 32 →
    ((maj x y z).getLsbD i = true ↔
      2 ≤ (x.getLsbD i).toNat + (y.getLsbD i).toNat + (z.getLsbD i).toNat)) ∧
  (∀ x y z : Word, ch 0xFFFFFFFF y z = y ∧ ch 0 y z = z ∧ ch x y y = y ∧ maj x x z = x ∧
    maj 0xFFFFFFFF 0 z = z) ∧
  ch 0x510e527f 0x9b05688c 0x1f83d9ab = 0x1f85c98c ∧
  maj 0x6a09e667 0xbb67ae85 0x3c6ef372 = 0x3a6fe667

/-- R85 to R88: the four sigma functions, with the corner cases and the worked examples. -/
def Obligations.SigmaFunctions : Prop :=
  (∀ x : Word,
    bigSigma0 x = rotr x 2 ^^^ rotr x 13 ^^^ rotr x 22 ∧
    bigSigma1 x = rotr x 6 ^^^ rotr x 11 ^^^ rotr x 25 ∧
    smallSigma0 x = rotr x 7 ^^^ rotr x 18 ^^^ shr x 3 ∧
    smallSigma1 x = rotr x 17 ^^^ rotr x 19 ^^^ shr x 10) ∧
  (bigSigma0 0 = 0 ∧ bigSigma0 0xFFFFFFFF = 0xFFFFFFFF ∧ bigSigma0 1 = 0x40080400 ∧
    bigSigma0 0x6a09e667 = 0xce20b47e) ∧
  (bigSigma1 0 = 0 ∧ bigSigma1 0xFFFFFFFF = 0xFFFFFFFF ∧ bigSigma1 1 = 0x04200080 ∧
    bigSigma1 0x510e527f = 0x3587272b) ∧
  (smallSigma0 0 = 0 ∧ smallSigma0 0xFFFFFFFF = 0x1FFFFFFF ∧ smallSigma0 1 = 0x02004000 ∧
    smallSigma0 0x12345678 = 0xe7fce6ee) ∧
  (smallSigma1 0 = 0 ∧ smallSigma1 0xFFFFFFFF = 0x003FFFFF ∧ smallSigma1 1 = 0x0000a000 ∧
    smallSigma1 0x12345678 = 0xa1f78649)

/-- R35: K has 64 entries, and K[t] is ⌊∛(p · 2^96)⌋ mod 2^32 for the (t+1)-th prime p, the first 32
bits of the fraction of its cube root. -/
def Obligations.RoundConstantsAreCubeRoots : Prop :=
  roundConstants.length = 64 ∧
  ∀ t : Nat, t < 64 →
    ∃ r : Nat, r ^ 3 ≤ Nat.nth Nat.Prime t * 2 ^ 96 ∧ Nat.nth Nat.Prime t * 2 ^ 96 < (r + 1) ^ 3 ∧
      roundConstants[t]? = some (BitVec.ofNat 32 r)

/-- IV[i] is ⌊√(p · 2^64)⌋ mod 2^32 for the (i+1)-th prime p. The spec marks the IV values and this
derivation as general knowledge (93_implementation_defined K1; 10_state §4). -/
def Obligations.InitialStateIsSquareRoots : Prop :=
  ∀ i : Nat, i < 8 →
    ∃ r : Nat, r ^ 2 ≤ Nat.nth Nat.Prime i * 2 ^ 64 ∧ Nat.nth Nat.Prime i * 2 ^ 64 < (r + 1) ^ 2 ∧
      initialState.words[i]? = some (BitVec.ofNat 32 r)

/-- R89, R41: the schedule has 64 words; the first 16 are the block's big-endian words, and each
later one is the recurrence over the words before it, modulo 2^32; the all-zero block gives zeros,
and the padded "abc" block the words of the worked example. -/
def Obligations.MessageScheduleRecurrence : Prop :=
  (∀ b : Block,
    (schedule b).length = 64 ∧
    (∀ i : Fin 16,
      (schedule b)[i.val]? =
        some (be32 b[4 * i.val] b[4 * i.val + 1] b[4 * i.val + 2] b[4 * i.val + 3])) ∧
    (∀ t : Nat, 16 ≤ t → t < 64 →
      (schedule b).getD t 0 =
        smallSigma1 ((schedule b).getD (t - 2) 0) + (schedule b).getD (t - 7) 0 +
          smallSigma0 ((schedule b).getD (t - 15) 0) + (schedule b).getD (t - 16) 0)) ∧
  schedule (Vector.replicate 64 0) = List.replicate 64 0 ∧
  (let w := schedule
      ((((((Vector.replicate 64 0).set 0 0x61).set 1 0x62).set 2 0x63).set 3 0x80).set 63 0x18);
    w[0]? = some 0x61626380 ∧ w[15]? = some 0x00000018 ∧ w[16]? = some 0x61626380 ∧
    w[17]? = some 0x000f0000 ∧ w[63]? = some 0x12b1edeb)

/-- R90 to R93: a round sets a = T1 + T2 and e = d + T1, with T1 and T2 of the old values, and
shifts the others by one place, all at once (with the worked round 0 of "abc"); compress loads a..h
from H, runs rounds t = 0 .. 63 with K[t] and W[t], and adds back word by word; with the rule's two
worked values. -/
def Obligations.CompressionFunction : Prop :=
  (∀ (k w : Word) (v : Work),
    let t1 := v.h + bigSigma1 v.e + ch v.e v.f v.g + k + w
    let t2 := bigSigma0 v.a + maj v.a v.b v.c
    roundStep k w v =
      { a := t1 + t2, b := v.a, c := v.b, d := v.c, e := v.d + t1, f := v.e, g := v.f, h := v.g }) ∧
  roundStep 0x428a2f98 0x61626380 (loadWork initialState) =
    { a := 0x5d6aebcd, b := 0x6a09e667, c := 0xbb67ae85, d := 0x3c6ef372, e := 0xfa2a4622,
      f := 0x510e527f, g := 0x9b05688c, h := 0x1f83d9ab } ∧
  (∀ (s : HState) (b : Block),
    let v := (List.range 64).foldl
      (fun v t => roundStep (roundConstants.getD t 0) ((schedule b).getD t 0) v)
      { a := s.h0, b := s.h1, c := s.h2, d := s.h3, e := s.h4, f := s.h5, g := s.h6, h := s.h7 }
    compress s b =
      { h0 := s.h0 + v.a, h1 := s.h1 + v.b, h2 := s.h2 + v.c, h3 := s.h3 + v.d,
        h4 := s.h4 + v.e, h5 := s.h5 + v.f, h6 := s.h6 + v.g, h7 := s.h7 + v.h }) ∧
  compress ⟨0, 0, 0, 0, 0, 0, 0, 0⟩ (Vector.replicate 64 0) =
    ⟨0x7ca51614, 0x425c3ba8, 0xce54dd2f, 0xc2020ae7, 0xb6e574d1, 0x98136d0f, 0xae7e26cc,
      0xbf0be7a6⟩ ∧
  compress initialState
      ((((((Vector.replicate 64 0).set 0 0x61).set 1 0x62).set 2 0x63).set 3 0x80).set 63 0x18) =
    ⟨0xba7816bf, 0x8f01cfea, 0x414140de, 0x5dae2223, 0xb00361a3, 0x96177a9c, 0xb410ff61,
      0xf20015ad⟩

/-- 40_compressor §3: the assignments h←g, g←f, f←e, e←d+T1, d←c, c←b, b←a, a←T1+T2, done one after
another in that order, give the round's result. The source lists them so; that this gives the same
as the simultaneous form is the spec's own inference, marked derived there ("by inspection of the
order"). -/
def Obligations.RoundAssignmentOrder : Prop :=
  ∀ (k w : Word) (v : Work),
    let t1 := v.h + bigSigma1 v.e + ch v.e v.f v.g + k + w
    let t2 := bigSigma0 v.a + maj v.a v.b v.c
    (let v := { v with h := v.g };
     let v := { v with g := v.f };
     let v := { v with f := v.e };
     let v := { v with e := v.d + t1 };
     let v := { v with d := v.c };
     let v := { v with c := v.b };
     let v := { v with b := v.a };
     { v with a := t1 + t2 }) = roundStep k w v

/-- 95_test_vectors L2-C: worked values of compress, on IV with the blocks 00×64, ff×64, "a"×64 and
00 01 … 3f, and on the all-one state. -/
def Obligations.CompressWorkedValues : Prop :=
  compress initialState (Vector.replicate 64 0) =
    ⟨0xda5698be, 0x17b9b469, 0x62335799, 0x779fbeca, 0x8ce5d491, 0xc0d26243, 0xbafef9ea,
      0x1837a9d8⟩ ∧
  compress initialState (Vector.replicate 64 0xff) =
    ⟨0xef0c748d, 0xf4da50a8, 0xd6c43c01, 0x3edc3ce7, 0x6c9d9fa9, 0xa1458ade, 0x56eb86c0,
      0xa64492d2⟩ ∧
  compress initialState (Vector.replicate 64 0x61) =
    ⟨0xdf5bb81c, 0xe81e0626, 0xfb45a894, 0x4fd40f31, 0xb25e6816, 0xd6d499c1, 0xab904929,
      0x00635e66⟩ ∧
  compress initialState (Vector.ofFn (fun k : Fin 64 => BitVec.ofNat 8 k.val)) =
    ⟨0xfc99a2df, 0x88f42a7a, 0x7bb9d180, 0x33cdc6a2, 0x0256755f, 0x9d5b9a50, 0x44a9cc31,
      0x5abe84a7⟩ ∧
  compress ⟨0xffffffff, 0xffffffff, 0xffffffff, 0xffffffff, 0xffffffff, 0xffffffff, 0xffffffff,
      0xffffffff⟩ (Vector.replicate 64 0xff) =
    ⟨0x0598127a, 0xaf11706e, 0x77401fff, 0xd730c549, 0x0b84c867, 0xa98c6ca3, 0xd7f3c0f9,
      0x06a78b79⟩

/-- R95: COMPRESS (frame 0x05, STATE, BLOCK) answers OK with the words of compress(S, BLOCK), in
every phase, and no component of any instance's message state changes. Its corner cases: a COMPRESS
placed anywhere among other commands changes neither what they answer nor the state they leave
(without it the run leaves the same message state and gives the same responses, but for its own 33
bytes); on IV and the padded form of a message of at most 55 bytes it gives the digest words of that
message; the worked example answers the digest of "abc". -/
def Obligations.CompressCommandAnswers : Prop :=
  (∀ (state : HState) (block : Block) (s : State),
    encode (.compress state block) = 0x05 :: serialise state ++ block.toList ∧
    exec (.compress state block) s =
      .next (s.onSelf (fun e =>
        { e with rspPending := e.rspPending ++ 0x00 :: serialise (compress state block) }))) ∧
  (∀ (before after : List Instr) (state : HState) (block : Block) (s t : State),
    execAll (before ++ .compress state block :: after) s = .next t →
      ∃ u reply1 reply2,
        execAll (before ++ after) s = .next u ∧
        u.self.SameMessageState t.self ∧
        u.self.rspPending = s.self.rspPending ++ reply1 ++ reply2 ∧
        t.self.rspPending =
          s.self.rspPending ++ reply1 ++ 0x00 :: serialise (compress state block) ++ reply2) ∧
  (∀ m : List Byte, m.length ≤ 55 →
    (paddedMessage m).length = 64 ∧
    compress initialState (blockAt (paddedMessage m) 0) = digestState m) ∧
  serialise (compress initialState
      ((((((Vector.replicate 64 0).set 0 0x61).set 1 0x62).set 2 0x63).set 3 0x80).set 63 0x18)) =
    [0xba, 0x78, 0x16, 0xbf, 0x8f, 0x01, 0xcf, 0xea, 0x41, 0x41, 0x40, 0xde, 0x5d, 0xae, 0x22, 0x23,
      0xb0, 0x03, 0x61, 0xa3, 0x96, 0x17, 0x7a, 0x9c, 0xb4, 0x10, 0xff, 0x61, 0xf2, 0x00, 0x15, 0xad]

/-! ### The streaming commands (41_streaming) -/

/-- R112: INIT (frame 0x01), in every phase, loads IV, clears TOTAL and CNT, goes to Empty and
answers OK; nothing else changes but BUF, whose bytes become don't-care. -/
def Obligations.InitStartsMessage : Prop :=
  encode .init = [0x01] ∧
  ∀ s : State, ∃ buf draws,
    exec .init s =
      .next (s.onSelf (fun e =>
        { e with
          h := initialState, buf := buf, cnt := 0, total := 0, phase := .empty, draws := draws
          rspPending := e.rspPending ++ [0x00] }))

/-- Two INITs leave the same message state as one, and a reset leaves what INIT leaves. The spec
marks both as derived (20_memory §3 "INIT is idempotent"; 70_reset_and_hazards §1 "exactly the state
INIT leaves"). -/
def Obligations.InitIsIdempotent : Prop :=
  ∀ s : State, ∃ t u, exec .init s = .next t ∧ exec .init t = .next u ∧
    u.self.SameMessageState t.self ∧ u.self.rspPending = s.self.rspPending ++ [0x00, 0x00] ∧
    s.self.assertReset.SameMessageState t.self

/-- R113: UPDATE (frame 0x02, LEN, DATA). In Finalized it raises InvalidState, whatever LEN is, and
changes nothing else. Otherwise it is refused when TOTAL + LEN, the exact sum, passes MAX_TOTAL;
else it answers OK, adds L to TOTAL without wrapping, absorbs the data (⌊(c + L)/64⌋ compressions,
of the blocks made of the c pending bytes followed by the data; CNT = (c + L) mod 64; BUF[0..CNT)
the last CNT bytes) and goes to Accumulating. -/
def Obligations.UpdateAppendsMessage : Prop :=
  ∀ (data : List Byte) (s : State),
    encode (.update data) = 0x02 :: (unbe64 (BitVec.ofNat 64 data.length) ++ data) ∧
    (s.self.phase = .finalized →
      exec (.update data) s =
        .next (s.onSelf (fun e => { e with rspPending := e.rspPending ++ [0x01] }))) ∧
    (s.self.phase ≠ .finalized → maxTotal < s.self.total.toNat + data.length →
      exec (.update data) s = .refused .lengthCeiling) ∧
    (s.self.phase ≠ .finalized → s.self.total.toNat + data.length ≤ maxTotal →
      ∃ buf draws,
        exec (.update data) s =
          .next (s.onSelf (fun e =>
            { e with
              h := compressN e.h (blocksOf (e.pending ++ data))
              buf := buf
              cnt := Fin.ofNat 64 (e.cnt.val + data.length)
              total := BitVec.ofNat 64 (e.total.toNat + data.length)
              phase := .accumulating
              draws := draws
              rspPending := e.rspPending ++ [0x00] })) ∧
        (blocksOf (s.self.pending ++ data)).length = (s.self.cnt.val + data.length) / 64 ∧
        buf.toList.take ((s.self.cnt.val + data.length) % 64) =
          leftover (s.self.pending ++ data) ∧
        (BitVec.ofNat 64 (s.self.total.toNat + data.length)).toNat =
          s.self.total.toNat + data.length)

/-- R140: UPDATE (with any data, even past the ceiling) and FINALIZE in Finalized answer
INVALID_STATE, one byte with no payload, and change nothing else; no other command answers it, and
none outside Finalized. -/
def Obligations.InvalidStateChangesNothing : Prop :=
  (∀ s : State, s.self.phase = .finalized →
    (∀ data : List Byte,
      exec (.update data) s =
        .next (s.onSelf (fun e => { e with rspPending := e.rspPending ++ [0x01] }))) ∧
    exec .finalize s =
      .next (s.onSelf (fun e => { e with rspPending := e.rspPending ++ [0x01] }))) ∧
  (∀ (i : Instr) (s t : State), exec i s = .next t →
    t.self.rspPending = s.self.rspPending ++ [0x01] →
    s.self.phase = .finalized ∧ ((∃ data, i = .update data) ∨ i = .finalize))

/-- 60_exceptions §1, the LengthCeiling row, and §1 "No other errors": the only commands without a
next state are UPDATE outside Finalized with TOTAL + LEN > MAX_TOTAL (the sum exact) and HASH with
LEN > MAX_TOTAL, and they are refused LengthCeiling. -/
def Obligations.LengthCeilingIsTheOnlyStop : Prop :=
  ∀ (i : Instr) (s : State),
    (∀ r, exec i s ≠ .fault r) ∧
    ∀ r, exec i s = .refused r ↔
      r = .lengthCeiling ∧
        ((∃ data, i = .update data ∧ s.self.phase ≠ .finalized ∧
            maxTotal < s.self.total.toNat + data.length) ∨
          ∃ data, i = .hash data ∧ maxTotal < data.length)

/-- The UPDATEs of s1, …, sn (n ≥ 1, any of them empty) in sequence leave the same H, CNT,
BUF[0..CNT), TOTAL and PHASE as one UPDATE of s1 ++ … ++ sn; they answer n OK frames against one:
"Multiple update calls are equivalent to one update call with the concatenation of all inputs"
(41_streaming §2, a rule the spec marks as derived). -/
def Obligations.UpdatesAreIncremental : Prop :=
  ∀ (parts : List (List Byte)) (s : State), parts ≠ [] → s.self.phase ≠ .finalized →
    s.self.total.toNat + parts.flatten.length ≤ maxTotal →
    ∃ t u,
      execAll (parts.map .update) s = .next t ∧
      exec (.update parts.flatten) s = .next u ∧
      t.self.SameMessageState u.self ∧
      t.self.rspPending = s.self.rspPending ++ List.replicate parts.length 0x00 ∧
      u.self.rspPending = s.self.rspPending ++ [0x00]

/-- R116: the padding is 0x80, z zero bytes and the 8 bytes of TOTAL · 8, with z = 55 − c for c ≤ 55
and 119 − c for c ≥ 56, so that the tail is one block or two; TOTAL · 8 does not wrap within
MAX_TOTAL. -/
def Obligations.PaddingForm : Prop :=
  ∀ (c : Fin 64) (total : BitVec 64), total.toNat ≤ maxTotal →
    ∃ z : Nat, z < 64 ∧ (c.val + 1 + z) % 64 = 56 ∧
      z = (if c.val ≤ 55 then 55 - c.val else 119 - c.val) ∧
      padding c total = [0x80] ++ List.replicate z 0x00 ++ unbe64 (total * 8) ∧
      (total * 8).toNat = 8 * total.toNat ∧
      c.val + (padding c total).length = if c.val ≤ 55 then 64 else 128

/-- R117: FINALIZE (frame 0x03). In Finalized it raises InvalidState and changes nothing else.
Otherwise it absorbs padding(CNT, TOTAL) (one compression if CNT ≤ 55, two if CNT ≥ 56), leaves CNT
= 0, TOTAL as it was and PHASE = Finalized, and answers OK with serialise(H). -/
def Obligations.FinalizeReturnsDigest : Prop :=
  encode .finalize = [0x03] ∧
  ∀ s : State,
    (s.self.phase = .finalized →
      exec .finalize s =
        .next (s.onSelf (fun e => { e with rspPending := e.rspPending ++ [0x01] }))) ∧
    (s.self.phase ≠ .finalized →
      ∃ buf draws,
        exec .finalize s =
          .next (s.onSelf (fun e =>
            let h := compressN e.h (blocksOf (e.pending ++ padding e.cnt e.total))
            { e with
              h := h, buf := buf, cnt := 0, phase := .finalized, draws := draws
              rspPending := e.rspPending ++ 0x00 :: serialise h })) ∧
        (blocksOf (s.self.pending ++ padding s.self.cnt s.self.total)).length =
          if s.self.cnt.val ≤ 55 then 1 else 2)

/-- HASH, in every phase and whatever message was in progress, answers OK with digest(m) in one
response and leaves the instance Finalized with the digest words in H and TOTAL = len(m). The closed
form of the digest is a rule the spec marks as derived (41_streaming §2, "Closed form of the
digest"). -/
def Obligations.HashReturnsDigest : Prop :=
  ∀ (m : List Byte) (s : State), m.length ≤ maxTotal →
    ∃ buf draws,
      exec (.hash m) s =
        .next (s.onSelf (fun e =>
          { e with
            h := digestState m, buf := buf, cnt := 0, total := BitVec.ofNat 64 m.length
            phase := .finalized, draws := draws
            rspPending := e.rspPending ++ 0x00 :: digest m }))

/-- R118: HASH (frame 0x04, LEN, DATA), in every phase, is refused when LEN > MAX_TOTAL and
otherwise is INIT; UPDATE; FINALIZE on the instance's own state: it completes, leaves the H, CNT,
BUF[0..CNT), TOTAL and PHASE those three leave, Finalized, and answers with the last of their three
responses alone (OK and 32 bytes, so it never raises InvalidState). -/
def Obligations.HashIsInitUpdateFinalize : Prop :=
  ∀ (m : List Byte) (s : State),
    encode (.hash m) = 0x04 :: (unbe64 (BitVec.ofNat 64 m.length) ++ m) ∧
    (maxTotal < m.length → exec (.hash m) s = .refused .lengthCeiling) ∧
    (m.length ≤ maxTotal →
      ∃ t u payload,
        exec (.hash m) s = .next t ∧
        execAll [.init, .update m, .finalize] s = .next u ∧
        payload.length = 32 ∧ payload = serialise t.self.h ∧
        t.self.rspPending = s.self.rspPending ++ 0x00 :: payload ∧
        t.self.SameMessageState u.self ∧
        u.self.rspPending = s.self.rspPending ++ [0x00, 0x00] ++ 0x00 :: payload ∧
        t.self.phase = .finalized)

/-- On an instance that an INIT or a reset has left fresh, UPDATEs of m1, …, mn and FINALIZE answer
n times OK and then OK with the digest of m1 ++ … ++ mn, which depends on the message alone
(41_streaming §2, "Closed form of the digest", a rule the spec marks as derived). -/
def Obligations.FreshInstanceStreamsDigest : Prop :=
  ∀ (parts : List (List Byte)) (s : State),
    s.self.h = initialState → s.self.cnt = 0 → s.self.total = 0 → s.self.phase = .empty →
    parts.flatten.length ≤ maxTotal →
    ∃ t,
      execAll (parts.map .update ++ [.finalize]) s = .next t ∧
      t.self.rspPending =
        s.self.rspPending ++ List.replicate parts.length 0x00 ++ 0x00 :: digest parts.flatten ∧
      t.self.h = digestState parts.flatten ∧ t.self.phase = .finalized

/-- The headline at the ports (30_encoding §1, 20_memory §5, 41_streaming §2 "Closed form of the
digest"; the order of turns, the transmission tag and `hostReady` are the model's, log entries 4, 5
and 6). Where the command port of the instance to move holds the frames of INIT; UPDATE(m1); …;
UPDATE(mn); FINALIZE laid end to end, that many steps of the machine take exactly those frames and
give the host n + 1 times OK and then OK with the digest of m1 ++ … ++ mn, in that order, whatever
state the instance was in. That `self` takes all of these steps, though other instances may have
steps too, is the model's order of turns (log entry 4), no rule of the spec. -/
def Obligations.StreamedDigestAtThePorts : Prop :=
  ∀ (parts : List (List Byte)) (tx : Nat) (more : List PortByte) (s : State),
    s.inputs = [] → s.self.rspPending = [] → s.self.hostReady = true →
    parts.flatten.length ≤ maxTotal →
    s.self.cmdPort =
      sentBytes tx (commandStream ([.init] ++ parts.map .update ++ [.finalize])) ++ more →
    ∃ t,
      core.run (parts.length + 2) s = .next t ∧
      t.self.rspPort =
        s.self.rspPort ++ List.replicate (parts.length + 1) 0x00 ++ 0x00 :: digest parts.flatten ∧
      t.self.cmdPort = more ∧ t.self.phase = .finalized

/-- 95_test_vectors L1-1, L1-2, the source's two reference outputs: HASH of the empty message and of
"abc", as frames at the command port right after reset. -/
def Obligations.ReferenceDigests : Prop :=
  (∃ t, step (placeFrame [0x04, 0, 0, 0, 0, 0, 0, 0, 0] State.reset) = .next t ∧
    t.self.rspPort = [0x00,
      0xe3, 0xb0, 0xc4, 0x42, 0x98, 0xfc, 0x1c, 0x14, 0x9a, 0xfb, 0xf4, 0xc8, 0x99, 0x6f, 0xb9, 0x24,
      0x27, 0xae, 0x41, 0xe4, 0x64, 0x9b, 0x93, 0x4c, 0xa4, 0x95, 0x99, 0x1b, 0x78, 0x52, 0xb8,
      0x55]) ∧
  (∃ t, step (placeFrame [0x04, 0, 0, 0, 0, 0, 0, 0, 3, 0x61, 0x62, 0x63] State.reset) = .next t ∧
    t.self.rspPort = [0x00,
      0xba, 0x78, 0x16, 0xbf, 0x8f, 0x01, 0xcf, 0xea, 0x41, 0x41, 0x40, 0xde, 0x5d, 0xae, 0x22, 0x23,
      0xb0, 0x03, 0x61, 0xa3, 0x96, 0x17, 0x7a, 0x9c, 0xb4, 0x10, 0xff, 0x61, 0xf2, 0x00, 0x15,
      0xad])

/-! ### State, responses, frames -/

/-- R28: the phase after a command that gives a next state is the table's: INIT to Empty, UPDATE to
Accumulating (Finalized stays, with InvalidState), FINALIZE and HASH to Finalized, COMPRESS
unchanged; an InvalidState changes no state component; reset goes to Empty from anywhere. -/
def Obligations.PhaseTransitions : Prop :=
  (∀ (i : Instr) (s t : State), exec i s = .next t →
    t.self.phase =
      match i, s.self.phase with
      | .init, _ => .empty
      | .update _, .finalized => .finalized
      | .update _, _ => .accumulating
      | .finalize, _ => .finalized
      | .hash _, _ => .finalized
      | .compress _ _, p => p) ∧
  (∀ (i : Instr) (s t : State), s.self.phase = .finalized →
    ((∃ data, i = .update data) ∨ i = .finalize) → exec i s = .next t →
    t.self.SameMessageState s.self ∧ t.self.rspPending = s.self.rspPending ++ [0x01]) ∧
  (∀ (s : State) (k : Nat) (evs : List Event) (e : Engine),
    s.inputs = .port k .reset :: evs → s.engines[k]? = some e →
    ∃ t e', step s = .next t ∧ t.engines[k]? = some e' ∧ e'.phase = .empty)

/-- R67, R68: every command that gives a next state emits exactly one response frame of its format;
STATUS is 0x00 or 0x01, and 0x01 exactly for UPDATE and FINALIZE in Finalized. -/
def Obligations.OneResponsePerCommand : Prop :=
  ∀ (i : Instr) (s t : State), exec i s = .next t →
    ∃ frame,
      t.self.rspPending = s.self.rspPending ++ frame ∧ ResponseFormat i frame ∧
      (frame.head? = some 0x01 ↔
        (s.self.phase = .finalized ∧ ((∃ data, i = .update data) ∨ i = .finalize)))

/-- The frame of every command (10_state §5 "Instances are independent", 20_memory §3): the other
instances, the inputs, the build, and of its own instance the identifier, the command port, what the
host has accepted and whether it accepts, are unchanged; COMPRESS and every command that answers
INVALID_STATE change nothing but the response. -/
def Obligations.CommandFrame : Prop :=
  ∀ (i : Instr) (s t : State), exec i s = .next t →
    t.before = s.before ∧ t.after = s.after ∧ t.inputs = s.inputs ∧
    t.hasCompress = s.hasCompress ∧ t.self.id = s.self.id ∧ t.self.cmdPort = s.self.cmdPort ∧
    t.self.rspPort = s.self.rspPort ∧ t.self.hostReady = s.self.hostReady ∧
    ((s.self.phase = .finalized ∧ ((∃ data, i = .update data) ∨ i = .finalize)) ∨
        (∃ state block, i = .compress state block) →
      t.self.h = s.self.h ∧ t.self.buf = s.self.buf ∧ t.self.cnt = s.self.cnt ∧
      t.self.total = s.self.total ∧ t.self.phase = s.self.phase)

/-- 10_state §1 "Writers of H": H of an instance changes in a step only by a reset, by a power-on,
or by its own turn with INIT, UPDATE, FINALIZE or HASH as its next command; never by COMPRESS, nor
by a command that answers INVALID_STATE, nor by another instance's turn, nor by the host. -/
def Obligations.WritersOfH : Prop :=
  ∀ (s t : State) (k : Nat) (e e' : Engine), step s = .next t →
    s.engines[k]? = some e → t.engines[k]? = some e' → e'.h ≠ e.h →
    s.inputs.head? = some .powerOn ∨ s.inputs.head? = some (.port k .reset) ∨
    (TurnOf s k ∧
      ∃ i rest, fetch s.hasCompress e.cmdPort = .command i rest ∧
        (i = .init ∨ (∃ data, i = .hash data) ∨
          (e.phase ≠ .finalized ∧ ((∃ data, i = .update data) ∨ i = .finalize))))

/-- 10_state §1 "No rule of this spec reads them" (derived there): no command reads BUF[CNT..64)
(nor the identifier, nor the count of free values drawn). Two states that agree on the message state
and the ports of the instance to move stop alike or go on alike, with the same responses and again
agreeing. -/
def Obligations.DontCareBytesAreNeverRead : Prop :=
  ∀ (i : Instr) (s s' : State), s.self.SameMessageState s'.self → s.self.SamePorts s'.self →
    (∀ r, exec i s = .refused r ↔ exec i s' = .refused r) ∧
    ∀ t, exec i s = .next t →
      ∃ t', exec i s' = .next t' ∧ t.self.SameMessageState t'.self ∧ t.self.SamePorts t'.self

/-! ### The step, the ports, the instances -/

/-- 20_memory §3 (command atomicity), 30_encoding §1: where the bytes of the command port decode to
a command, sent as one transmission, the step is `exec` of that command on the state whose port has
lost exactly its frame, and then the host takes the response if it accepts it (the tag and
`hostReady` are the model's, log entries 5 and 6). The same when an input gives an instance its
turn, and when no input is left and another instance than `self` has the turn (the order of turns is
the model's, log entry 4). -/
def Obligations.StepRunsDecodedCommand : Prop :=
  (∀ (s : State) (i : Instr) (rest : List Byte), s.inputs = [] → s.self.rspPending = [] →
    decodeWith s.hasCompress (portBytes s.self.cmdPort) = .command i rest →
    interleaved (s.self.cmdPort.take (s.self.cmdPort.length - rest.length)) = false →
    step s =
      afterCommand (exec i (s.onSelf (fun e =>
        { e with cmdPort := e.cmdPort.drop (e.cmdPort.length - rest.length) })))) ∧
  (∀ (s u : State) (k : Nat) (evs : List Event) (i : Instr) (rest : List Byte),
    s.inputs = .port k .run :: evs → ({ s with inputs := evs } : State).focus k = some u →
    u.self.rspPending = [] →
    decodeWith u.hasCompress (portBytes u.self.cmdPort) = .command i rest →
    interleaved (u.self.cmdPort.take (u.self.cmdPort.length - rest.length)) = false →
    step s =
      afterCommand (exec i (u.onSelf (fun e =>
        { e with cmdPort := e.cmdPort.drop (e.cmdPort.length - rest.length) })))) ∧
  (∀ (s u : State) (i : Instr) (rest : List Byte), s.inputs = [] → s.focus s.turn = some u →
    u.self.rspPending = [] →
    decodeWith u.hasCompress (portBytes u.self.cmdPort) = .command i rest →
    interleaved (u.self.cmdPort.take (u.self.cmdPort.length - rest.length)) = false →
    step s =
      afterCommand (exec i (u.onSelf (fun e =>
        { e with cmdPort := e.cmdPort.drop (e.cmdPort.length - rest.length) }))))

/-- 70_reset_and_hazards §4 "Progress", 20_memory §5 (that `self` has the turn, the tag and
`hostReady` are the model's, log entries 4, 5 and 6): a complete frame of a command the build
defines, sent as one transmission to an instance whose host accepts, is taken from the port whole
and answered by exactly one response frame, which joins what the host has accepted; it is refused
only where R142 says LengthCeiling. -/
def Obligations.CompleteFrameIsAnswered : Prop :=
  ∀ (i : Instr) (tx : Nat) (more : List PortByte) (s : State),
    i.wf = true → i.opcode ∈ Opcode.defined s.hasCompress →
    s.inputs = [] → s.self.rspPending = [] → s.self.hostReady = true →
    s.self.cmdPort = sentBytes tx (encode i) ++ more →
    (overCeiling i s.self → step s = .refused .lengthCeiling) ∧
    (¬ overCeiling i s.self →
      ∃ t frame, step s = .next t ∧ ResponseFormat i frame ∧ t.self.cmdPort = more ∧
        t.self.rspPort = s.self.rspPort ++ frame ∧ t.self.rspPending = [])

/-- 70_reset_and_hazards §4 "A model represents each as an instance with no enabled step, a stuck
state" (the fault and the turn are the model's form of it, log entries 4 and 6): an instance whose
response is not accepted, or whose frame is incomplete, has no step. With no input left the machine
stops as stuck exactly when that holds of every instance, under the name of what `self` waits for;
and a turn given to a waiting instance changes no instance. -/
def Obligations.InstanceWaits : Prop :=
  (∀ (hasCompress : Bool) (e : Engine),
    (e.rspPending ≠ [] → e.waits hasCompress = true) ∧
    (∀ (tx : Nat) (bs : List Byte), e.cmdPort = sentBytes tx bs →
      decodeWith hasCompress bs = .incomplete → e.waits hasCompress = true) ∧
    (e.rspPending = [] → decodeWith hasCompress (portBytes e.cmdPort) ≠ .incomplete →
      e.waits hasCompress = false)) ∧
  (∀ s : State, s.inputs = [] → (∀ e ∈ s.engines, e.waits s.hasCompress = true) →
    step s =
      .fault (if s.self.rspPending = [] then .frameIncomplete else .responseNotAccepted)) ∧
  (∀ (s : State) (r : Fault), s.inputs = [] → step s = .fault r →
    ∀ e ∈ s.engines, e.waits s.hasCompress = true) ∧
  (∀ (s : State) (k : Nat) (evs : List Event) (e : Engine),
    s.inputs = .port k .run :: evs → s.engines[k]? = some e → e.waits s.hasCompress = true →
    ∃ t, step s = .next t ∧ t.engines = s.engines ∧ t.inputs = evs)

/-- 70_reset_and_hazards §4 "Progress" for every instance of the platform: with no input left, a
complete frame of a command the build defines, sent as one transmission to any instance k whose host
accepts and has accepted the response before, is taken from the port whole and answered by one
response frame, within as many steps as there are bytes on all command ports, unless a frame that
the spec refuses (of any instance) stops the machine first. (The tag, `hostReady` and the order of
turns are the model's, log entries 4 to 6.) -/
def Obligations.EveryFrameIsAnswered : Prop :=
  ∀ (i : Instr) (tx : Nat) (more : List PortByte) (s : State) (k : Nat) (e : Engine),
    i.wf = true → i.opcode ∈ Opcode.defined s.hasCompress → s.inputs = [] →
    s.engines[k]? = some e → e.rspPending = [] → e.hostReady = true →
    e.cmdPort = sentBytes tx (encode i) ++ more →
    ∃ n, n ≤ (s.engines.map (fun f => f.cmdPort.length)).sum ∧
      ((∃ r, core.run n s = .refused r) ∨
        ∃ t frame e', core.run n s = .next t ∧ ResponseFormat i frame ∧
          t.engines[k]? = some e' ∧ e'.cmdPort = more ∧ e'.rspPort = e.rspPort ++ frame ∧
          e'.rspPending = [])

/-- 60_exceptions §1 ConcurrentAccess, 70_reset_and_hazards §3 (the tag of a byte's transmission,
and that `self` has the turn while it has a step, are the model's own, log entries 5 and 4): a frame
with bytes of more than one transmission in it, complete or not, is refused ConcurrentAccess, on
every turn of its instance. -/
def Obligations.InterleavedFrameRefused : Prop :=
  (∀ port : List PortByte,
    interleaved port = true ↔ ∃ p ∈ port, ∃ q ∈ port, p.tx ≠ q.tx) ∧
  (∀ (s : State) (i : Instr) (rest : List Byte), s.inputs = [] → s.self.rspPending = [] →
    decodeWith s.hasCompress (portBytes s.self.cmdPort) = .command i rest →
    interleaved (s.self.cmdPort.take (s.self.cmdPort.length - rest.length)) = true →
    step s = .refused .concurrentAccess) ∧
  (∀ s : State, s.inputs = [] → s.self.rspPending = [] →
    decodeWith s.hasCompress (portBytes s.self.cmdPort) = .incomplete →
    interleaved s.self.cmdPort = true → step s = .refused .concurrentAccess) ∧
  (∀ (s : State) (k : Nat) (e : Engine) (i : Instr) (rest : List Byte), TurnOf s k →
    s.engines[k]? = some e → e.rspPending = [] →
    decodeWith s.hasCompress (portBytes e.cmdPort) = .command i rest →
    interleaved (e.cmdPort.take (e.cmdPort.length - rest.length)) = true →
    step s = .refused .concurrentAccess) ∧
  (∀ (s : State) (k : Nat) (e : Engine), TurnOf s k →
    s.engines[k]? = some e → e.rspPending = [] →
    decodeWith s.hasCompress (portBytes e.cmdPort) = .incomplete →
    interleaved e.cmdPort = true → step s = .refused .concurrentAccess)

/-- R160: a reset asserted on instance k leaves H = IV, CNT = 0, TOTAL = 0, PHASE = Empty, whatever
it held; a partly received frame is discarded, so that the next byte is an opcode; no response is
being emitted; the other instances are unchanged. Power-on does so to every instance. (What a reset
does to whole frames that wait at the port is the model's reading and not in this statement: log
entry 11, HostActsAtThePorts.) -/
def Obligations.ResetEvent : Prop :=
  (∀ (s : State) (k : Nat) (evs : List Event) (e : Engine),
    s.inputs = .port k .reset :: evs → s.engines[k]? = some e →
    ∃ t e',
      step s = .next t ∧ t.engines = s.engines.set k e' ∧ t.inputs = evs ∧
      e'.h = initialState ∧ e'.cnt = 0 ∧ e'.total = 0 ∧ e'.phase = .empty ∧
      (fetch s.hasCompress e.cmdPort = .waiting → e'.cmdPort = []) ∧ e'.rspPending = []) ∧
  (∀ (s : State) (evs : List Event), s.inputs = .powerOn :: evs →
    ∃ t, step s = .next t ∧ t.engines.length = s.engines.length ∧ t.inputs = evs ∧
      ∀ (k : Nat) (e e' : Engine), s.engines[k]? = some e → t.engines[k]? = some e' →
        e'.h = initialState ∧ e'.cnt = 0 ∧ e'.total = 0 ∧ e'.phase = .empty ∧
        (fetch s.hasCompress e.cmdPort = .waiting → e'.cmdPort = []) ∧ e'.rspPending = [])

/-- R37: what reset leaves, on a platform of any number of instances: H = IV, CNT = 0, TOTAL = 0,
PHASE = Empty, no frame byte received (and no response being emitted, 70_reset_and_hazards §1); the
instances are numbered 0 .. N−1. BUF is unspecified there and not in this statement. -/
def Obligations.ResetValues : Prop :=
  ∀ n : Nat,
    (State.platform n).engines.length = n + 1 ∧
    (State.platform n).engines.map (·.id) = List.range (n + 1) ∧
    ∀ e ∈ (State.platform n).engines,
      e.h = initialState ∧ e.cnt = 0 ∧ e.total = 0 ∧ e.phase = .empty ∧ e.cmdPort = [] ∧
      e.rspPending = []

/-- 30_encoding §1, 70_reset_and_hazards §4 (the inputs are the model's form of it, log entries 4
and 6): the host's acts at instance k: sent bytes join the end of its command port; accepted bytes
leave the response being emitted in order, none lost and none added; a host that becomes ready takes
all of it. Nothing else of the instance changes. A reset empties the command port, whole frames that
wait there included, and leaves what the host has accepted and whether it accepts (the model's
reading, log entry 11). -/
def Obligations.HostActsAtThePorts : Prop :=
  ∀ (s : State) (k : Nat) (evs : List Event) (e : Engine), s.engines[k]? = some e →
    (∀ tx bs, s.inputs = .port k (.send tx bs) :: evs →
      ∃ t, step s = .next t ∧ t.inputs = evs ∧
        t.engines = s.engines.set k { e with cmdPort := e.cmdPort ++ sentBytes tx bs }) ∧
    (∀ n, s.inputs = .port k (.accept n) :: evs →
      ∃ t accepted left, step s = .next t ∧ t.inputs = evs ∧ e.rspPending = accepted ++ left ∧
        accepted.length = min n e.rspPending.length ∧
        t.engines =
          s.engines.set k { e with rspPort := e.rspPort ++ accepted, rspPending := left }) ∧
    (s.inputs = .port k (.ready true) :: evs →
      ∃ t, step s = .next t ∧ t.inputs = evs ∧
        t.engines =
          s.engines.set k
            { e with
              hostReady := true, rspPort := e.rspPort ++ e.rspPending, rspPending := [] }) ∧
    (s.inputs = .port k (.ready false) :: evs →
      ∃ t, step s = .next t ∧ t.inputs = evs ∧
        t.engines = s.engines.set k { e with hostReady := false }) ∧
    (s.inputs = .port k .reset :: evs →
      ∃ t e', step s = .next t ∧ t.engines = s.engines.set k e' ∧ e'.cmdPort = [] ∧
        e'.id = e.id ∧ e'.rspPort = e.rspPort ∧ e'.hostReady = e.hostReady)

/-- 60_exceptions §3 "its index 0 to N_INSTANCES − 1" (the fault is the model's, log entry 4): an
input at the ports of an instance the platform does not have stops the machine, and only such an
input does so with that fault. -/
def Obligations.NoSuchInstance : Prop :=
  ∀ (s : State) (k : Nat) (a : PortAction) (evs : List Event), s.inputs = .port k a :: evs →
    (step s = .fault .noSuchInstance ↔ s.engines.length ≤ k)

/-- 10_state §5 "Instances are independent": a step keeps the number, order and identifiers of the
instances and the build; an input at one instance's ports leaves every other instance as it was, and
a step with no input leaves all but the instance whose turn it is, `self` while it has a step (that
`self` then has the turn, the last clause, is the model's order of turns, log entry 4, no rule of
the spec; the clause before it holds whichever instance has the turn). -/
def Obligations.OtherInstancesUntouched : Prop :=
  ∀ s t : State, step s = .next t →
    t.engines.map (·.id) = s.engines.map (·.id) ∧ t.hasCompress = s.hasCompress ∧
    (∀ k a evs j, s.inputs = .port k a :: evs → j ≠ k → t.engines[j]? = s.engines[j]?) ∧
    (s.inputs = [] → ∀ j, j ≠ s.turn → t.engines[j]? = s.engines[j]?) ∧
    (s.inputs = [] → s.self.waits s.hasCompress = false → t.before = s.before ∧ t.after = s.after)

/-- 10_state §5 "A command to one instance reads and writes only that instance's state": what a
command of instance k does is read off that instance alone: two platforms with the same build and
the same instance k, and anything in the others, stop alike on an input at its ports or go on alike,
with the same message state and ports of instance k. -/
def Obligations.InstanceReadsOnlyItself : Prop :=
  ∀ (s s' : State) (k : Nat) (a : PortAction) (evs evs' : List Event),
    s.inputs = .port k a :: evs → s'.inputs = .port k a :: evs' →
    s.engines[k]? = s'.engines[k]? → s.hasCompress = s'.hasCompress →
    (∀ r, step s = .fault r ↔ step s' = .fault r) ∧
    (∀ r, step s = .refused r ↔ step s' = .refused r) ∧
    ∀ t, step s = .next t → ∃ t' e e', step s' = .next t' ∧ t.engines[k]? = some e ∧
      t'.engines[k]? = some e' ∧ e.SameMessageState e' ∧ e.SamePorts e'

/-- 20_memory §5 "No order across instances … none is observable" (derived there): steps of
different instances commute: an input at the ports of instance j and then one at those of instance k
(a turn, a reset, bytes sent or accepted) leave every instance with the same message state and ports
in either order. -/
def Obligations.InstancesCommute : Prop :=
  ∀ (s t : State) (j k : Nat) (a b : PortAction), j ≠ k →
    core.run 2 ({ s with inputs := [.port j a, .port k b] } : State) = .next t →
    ∃ t', core.run 2 ({ s with inputs := [.port k b, .port j a] } : State) = .next t' ∧
      t'.engines.length = t.engines.length ∧
      ∀ (i : Nat) (e e' : Engine), t.engines[i]? = some e → t'.engines[i]? = some e' →
        e.SameMessageState e' ∧ e.SamePorts e'

/-! ### The invariant -/

/-- 10_state §1 "Phase invariants" (derived there), and that a host that accepts is served (log
entry 6): every step keeps the invariant of every instance: it holds a message m of at most
MAX_TOTAL bytes with TOTAL = len(m); in Empty m = "", H = IV and CNT = 0; in Accumulating H is the
state after the whole blocks of m and BUF[0..CNT) the rest of m, CNT = TOTAL mod 64; in Finalized H
holds the digest words of m and CNT = 0; and no response is left pending while the host accepts. -/
def Obligations.StepKeepsInvariant : Prop :=
  ∀ s t : State, s.Inv → step s = .next t → t.Inv

/-- The invariant holds right after reset, whatever the number of instances (10_state §1, §5). -/
def Obligations.ResetMeetsInvariant : Prop :=
  (∀ n : Nat, (State.platform n).Inv) ∧ State.reset.Inv

/-- 10_state §1 "Phase invariants" (derived there), 41_streaming §2: the message an instance holds
grows by exactly the data of each UPDATE, starts empty at INIT, is the data of HASH, and FINALIZE of
an instance that holds m returns digest(m). -/
def Obligations.CommandsTrackTheMessage : Prop :=
  ∀ (i : Instr) (s t : State) (m : List Byte), s.self.Holds m → exec i s = .next t →
    match i with
    | .init => t.self.Holds []
    | .update data =>
      if s.self.phase = .finalized then t.self.Holds m else t.self.Holds (m ++ data)
    | .finalize =>
      t.self.Holds m ∧
        (s.self.phase ≠ .finalized →
          t.self.rspPending = s.self.rspPending ++ 0x00 :: digest m)
    | .hash data => t.self.Holds data
    | .compress _ _ => t.self.Holds m

/-- 70_reset_and_hazards §4 "Progress" (that `self` has the turn and `hostReady` are the model's,
log entries 4 and 6): with the invariant, a platform whose instance to move has its host ready and a
whole frame of one transmission waiting always steps: to a next state, or to the refusal
LengthCeiling. -/
def Obligations.NoHangUnderInvariant : Prop :=
  ∀ (s : State) (i : Instr) (rest : List Byte), s.Inv → s.inputs = [] →
    s.self.hostReady = true →
    decodeWith s.hasCompress (portBytes s.self.cmdPort) = .command i rest →
    interleaved (s.self.cmdPort.take (s.self.cmdPort.length - rest.length)) = false →
    (∃ t, step s = .next t) ∨ (step s = .refused .lengthCeiling ∧ overCeiling i s.self)

/-- 30_encoding §2, for `self` with no input left: a reserved opcode at its port is refused at once,
though other instances may have steps too. That `self` has the turn while it has a step is the
model's order of turns (log entry 4), no rule of the spec. -/
def Obligations.ReservedOpcodeOfSelfRefused : Prop :=
  ∀ (s : State) (p : PortByte) (ps : List PortByte), s.inputs = [] → s.self.rspPending = [] →
    s.self.cmdPort = p :: ps →
    (p.byte = 0x00 ∨ 6 ≤ p.byte.toNat ∨ (p.byte = 0x05 ∧ s.hasCompress = false)) →
    step s = .refused .reservedOpcode
end

