-- ==== Sys2Proof/Laws/State.lean ====
section
/-! SUPPORT. What each update of the state leaves in each field: one lemma a field, true by rfl. -/

namespace Sys2Proof.Machine

@[simp] theorem State.onSelf_self (f : Engine → Engine) (s : State) :
    (s.onSelf f).self = f s.self := rfl
@[simp] theorem State.onSelf_before (f : Engine → Engine) (s : State) :
    (s.onSelf f).before = s.before := rfl
@[simp] theorem State.onSelf_after (f : Engine → Engine) (s : State) :
    (s.onSelf f).after = s.after := rfl
@[simp] theorem State.onSelf_inputs (f : Engine → Engine) (s : State) :
    (s.onSelf f).inputs = s.inputs := rfl
@[simp] theorem State.onSelf_hasCompress (f : Engine → Engine) (s : State) :
    (s.onSelf f).hasCompress = s.hasCompress := rfl
@[simp] theorem State.onSelf_onSelf (f g : Engine → Engine) (s : State) :
    (s.onSelf f).onSelf g = s.onSelf (fun e => g (f e)) := rfl

@[simp] theorem Engine.startMessage_h (e : Engine) : e.startMessage.h = initialState := rfl
@[simp] theorem Engine.startMessage_cnt (e : Engine) : e.startMessage.cnt = 0 := rfl
@[simp] theorem Engine.startMessage_total (e : Engine) : e.startMessage.total = 0 := rfl
@[simp] theorem Engine.startMessage_phase (e : Engine) : e.startMessage.phase = .empty := rfl
@[simp] theorem Engine.startMessage_id (e : Engine) : e.startMessage.id = e.id := rfl
@[simp] theorem Engine.startMessage_cmdPort (e : Engine) : e.startMessage.cmdPort = e.cmdPort := rfl
@[simp] theorem Engine.startMessage_rspPending (e : Engine) :
    e.startMessage.rspPending = e.rspPending := rfl
@[simp] theorem Engine.startMessage_rspPort (e : Engine) : e.startMessage.rspPort = e.rspPort := rfl
@[simp] theorem Engine.startMessage_hostReady (e : Engine) :
    e.startMessage.hostReady = e.hostReady := rfl

@[simp] theorem Engine.assertReset_h (e : Engine) : e.assertReset.h = initialState := rfl
@[simp] theorem Engine.assertReset_cnt (e : Engine) : e.assertReset.cnt = 0 := rfl
@[simp] theorem Engine.assertReset_total (e : Engine) : e.assertReset.total = 0 := rfl
@[simp] theorem Engine.assertReset_phase (e : Engine) : e.assertReset.phase = .empty := rfl
@[simp] theorem Engine.assertReset_id (e : Engine) : e.assertReset.id = e.id := rfl
@[simp] theorem Engine.assertReset_cmdPort (e : Engine) : e.assertReset.cmdPort = [] := rfl
@[simp] theorem Engine.assertReset_rspPending (e : Engine) : e.assertReset.rspPending = [] := rfl
@[simp] theorem Engine.assertReset_rspPort (e : Engine) : e.assertReset.rspPort = e.rspPort := rfl
@[simp] theorem Engine.assertReset_hostReady (e : Engine) :
    e.assertReset.hostReady = e.hostReady := rfl

@[simp] theorem Engine.acceptBytes_rspPort (n : Nat) (e : Engine) :
    (e.acceptBytes n).rspPort = e.rspPort ++ e.rspPending.take n := rfl
@[simp] theorem Engine.acceptBytes_rspPending (n : Nat) (e : Engine) :
    (e.acceptBytes n).rspPending = e.rspPending.drop n := rfl
@[simp] theorem Engine.acceptBytes_cmdPort (n : Nat) (e : Engine) :
    (e.acceptBytes n).cmdPort = e.cmdPort := rfl
@[simp] theorem Engine.acceptBytes_hostReady (n : Nat) (e : Engine) :
    (e.acceptBytes n).hostReady = e.hostReady := rfl

/-- Delivering to a host that is ready. -/
theorem Engine.deliver_ready (e : Engine) (h : e.hostReady = true) :
    e.deliver = { e with rspPort := e.rspPort ++ e.rspPending, rspPending := [] } := by
  simp [Engine.deliver, h]

/-- Delivering to a host that is not ready. -/
theorem Engine.deliver_stalled (e : Engine) (h : e.hostReady = false) : e.deliver = e := by
  simp [Engine.deliver, h]

@[simp] theorem Engine.deliver_h (e : Engine) : e.deliver.h = e.h := by
  unfold Engine.deliver; split <;> rfl
@[simp] theorem Engine.deliver_buf (e : Engine) : e.deliver.buf = e.buf := by
  unfold Engine.deliver; split <;> rfl
@[simp] theorem Engine.deliver_cnt (e : Engine) : e.deliver.cnt = e.cnt := by
  unfold Engine.deliver; split <;> rfl
@[simp] theorem Engine.deliver_total (e : Engine) : e.deliver.total = e.total := by
  unfold Engine.deliver; split <;> rfl
@[simp] theorem Engine.deliver_phase (e : Engine) : e.deliver.phase = e.phase := by
  unfold Engine.deliver; split <;> rfl
@[simp] theorem Engine.deliver_id (e : Engine) : e.deliver.id = e.id := by
  unfold Engine.deliver; split <;> rfl
@[simp] theorem Engine.deliver_cmdPort (e : Engine) : e.deliver.cmdPort = e.cmdPort := by
  unfold Engine.deliver; split <;> rfl
@[simp] theorem Engine.deliver_hostReady (e : Engine) : e.deliver.hostReady = e.hostReady := by
  unfold Engine.deliver; split <;> rfl
@[simp] theorem Engine.deliver_draws (e : Engine) : e.deliver.draws = e.draws := by
  unfold Engine.deliver; split <;> rfl

/-- Delivering neither loses nor adds a byte. -/
@[simp] theorem Engine.deliver_bytes (e : Engine) :
    e.deliver.rspPort ++ e.deliver.rspPending = e.rspPort ++ e.rspPending := by
  unfold Engine.deliver; split <;> simp

/-- Responding always gives a next state: the response frame joins what is being emitted. -/
theorem respond_eq (st : Status) (p : List Byte) (s : State) :
    respond st p s =
      .next (s.onSelf (fun e => { e with rspPending := e.rspPending ++ responseFrame st p })) := rfl

/-- Raising InvalidState always gives a next state, with one byte more being emitted. -/
theorem raiseInvalidState_eq (s : State) :
    raiseInvalidState s =
      .next (s.onSelf (fun e => { e with rspPending := e.rspPending ++ [0x01] })) := rfl

/-- Where there is an instance with index `k`, focusing it keeps the platform's instances in order. -/
theorem State.focus_engines {k : Nat} {s t : State} (h : s.focus k = some t) :
    t.engines = s.engines ∧ s.engines[k]? = some t.self ∧ t.before.length = k ∧
      t.inputs = s.inputs ∧ t.hasCompress = s.hasCompress := by
  unfold State.focus at h
  split at h
  · rename_i e he
    cases h
    obtain ⟨hk, hget⟩ := List.getElem?_eq_some_iff.mp he
    refine ⟨?_, he, by simp; omega, rfl, rfl⟩
    rw [← hget]
    simp [State.engines]
  · cases h

/-- There is an instance with index `k` exactly for k < N_INSTANCES. -/
theorem State.focus_none_iff {k : Nat} {s : State} : s.focus k = none ↔ s.engines.length ≤ k := by
  unfold State.focus
  split <;> rename_i h
  · simp only [reduceCtorEq, false_iff, not_le]
    exact (List.getElem?_eq_some_iff.mp h).1
  · simpa using h

end Sys2Proof.Machine
end

