-- ==== Sys2Proof/Laws/Absorb.lean ====
section
/-! SUPPORT. What absorbing bytes does (41_streaming R110, R111): the fields it leaves alone, and one
lemma that says all the rest, in terms of the blocks and the leftover of the bytes absorbed. -/

namespace Sys2Proof.Machine

@[simp] theorem Engine.absorb_total (e : Engine) (x : Byte) : (e.absorb x).total = e.total := by
  unfold Engine.absorb; split <;> rfl
@[simp] theorem Engine.absorb_phase (e : Engine) (x : Byte) : (e.absorb x).phase = e.phase := by
  unfold Engine.absorb; split <;> rfl
@[simp] theorem Engine.absorb_id (e : Engine) (x : Byte) : (e.absorb x).id = e.id := by
  unfold Engine.absorb; split <;> rfl
@[simp] theorem Engine.absorb_cmdPort (e : Engine) (x : Byte) : (e.absorb x).cmdPort = e.cmdPort := by
  unfold Engine.absorb; split <;> rfl
@[simp] theorem Engine.absorb_rspPending (e : Engine) (x : Byte) :
    (e.absorb x).rspPending = e.rspPending := by
  unfold Engine.absorb; split <;> rfl
@[simp] theorem Engine.absorb_rspPort (e : Engine) (x : Byte) : (e.absorb x).rspPort = e.rspPort := by
  unfold Engine.absorb; split <;> rfl
@[simp] theorem Engine.absorb_hostReady (e : Engine) (x : Byte) :
    (e.absorb x).hostReady = e.hostReady := by
  unfold Engine.absorb; split <;> rfl

@[simp] theorem Engine.absorbAll_nil (e : Engine) : e.absorbAll [] = e := rfl
@[simp] theorem Engine.absorbAll_cons (e : Engine) (x : Byte) (s : List Byte) :
    e.absorbAll (x :: s) = (e.absorb x).absorbAll s := rfl
theorem Engine.absorbAll_append (e : Engine) (s u : List Byte) :
    e.absorbAll (s ++ u) = (e.absorbAll s).absorbAll u := List.foldl_append

@[simp] theorem Engine.absorbAll_total (e : Engine) (s : List Byte) :
    (e.absorbAll s).total = e.total := by
  induction s generalizing e with
  | nil => rfl
  | cons x s ih => simp [ih]
@[simp] theorem Engine.absorbAll_phase (e : Engine) (s : List Byte) :
    (e.absorbAll s).phase = e.phase := by
  induction s generalizing e with
  | nil => rfl
  | cons x s ih => simp [ih]
@[simp] theorem Engine.absorbAll_id (e : Engine) (s : List Byte) : (e.absorbAll s).id = e.id := by
  induction s generalizing e with
  | nil => rfl
  | cons x s ih => simp [ih]
@[simp] theorem Engine.absorbAll_cmdPort (e : Engine) (s : List Byte) :
    (e.absorbAll s).cmdPort = e.cmdPort := by
  induction s generalizing e with
  | nil => rfl
  | cons x s ih => simp [ih]
@[simp] theorem Engine.absorbAll_rspPending (e : Engine) (s : List Byte) :
    (e.absorbAll s).rspPending = e.rspPending := by
  induction s generalizing e with
  | nil => rfl
  | cons x s ih => simp [ih]
@[simp] theorem Engine.absorbAll_rspPort (e : Engine) (s : List Byte) :
    (e.absorbAll s).rspPort = e.rspPort := by
  induction s generalizing e with
  | nil => rfl
  | cons x s ih => simp [ih]
@[simp] theorem Engine.absorbAll_hostReady (e : Engine) (s : List Byte) :
    (e.absorbAll s).hostReady = e.hostReady := by
  induction s generalizing e with
  | nil => rfl
  | cons x s ih => simp [ih]

/-- BUF[0..CNT) has CNT bytes. -/
@[simp] theorem Engine.pending_length (e : Engine) : e.pending.length = e.cnt.val := by
  simp [Engine.pending]

@[simp] theorem blocksOf_length (m : List Byte) : (blocksOf m).length = m.length / 64 := by
  simp [blocksOf]

@[simp] theorem leftover_length (m : List Byte) : (leftover m).length = m.length % 64 := by
  simp only [leftover, List.length_drop]
  omega

/-- A sequence shorter than a block has no block and is all leftover. -/
theorem blocksOf_short {m : List Byte} (h : m.length < 64) : blocksOf m = [] := by
  simp [blocksOf, Nat.div_eq_of_lt h]

theorem leftover_short {m : List Byte} (h : m.length < 64) : leftover m = m := by
  simp [leftover, Nat.div_eq_of_lt h]

/-- A block inside `m` reads only `m`. -/
theorem blockAt_append {m : List Byte} (u : List Byte) {i : Nat} (h : 64 * i + 64 ≤ m.length) :
    blockAt (m ++ u) i = blockAt m i := by
  unfold blockAt
  congr 2
  refine List.map_congr_left fun j hj => ?_
  have hj' : j < 64 := List.mem_range.mp hj
  simp only [List.getD_eq_getElem?_getD]
  rw [List.getElem?_append_left (by omega)]

/-- One more byte that does not fill a block changes no block. -/
theorem blocksOf_snoc_short (m : List Byte) (x : Byte) (h : m.length % 64 + 1 < 64) :
    blocksOf (m ++ [x]) = blocksOf m := by
  unfold blocksOf
  have hlen : (m ++ [x]).length / 64 = m.length / 64 := by simp; omega
  rw [hlen]
  refine List.map_congr_left fun i hi => blockAt_append _ ?_
  have := List.mem_range.mp hi
  omega

theorem leftover_snoc_short (m : List Byte) (x : Byte) (h : m.length % 64 + 1 < 64) :
    leftover (m ++ [x]) = leftover m ++ [x] := by
  unfold leftover
  have hlen : (m ++ [x]).length / 64 = m.length / 64 := by simp; omega
  rw [hlen, List.drop_append_of_le_length (by omega)]

/-- One more byte that fills a block adds that block. -/
theorem blocksOf_snoc_full (m : List Byte) (x : Byte) (h : m.length % 64 = 63) :
    blocksOf (m ++ [x]) = blocksOf m ++ [blockAt (m ++ [x]) (m.length / 64)] := by
  unfold blocksOf
  have hlen : (m ++ [x]).length / 64 = m.length / 64 + 1 := by simp; omega
  rw [hlen, List.range_succ, List.map_append]
  congr 1
  refine List.map_congr_left fun i hi => blockAt_append _ ?_
  have := List.mem_range.mp hi
  omega

theorem leftover_snoc_full (m : List Byte) (x : Byte) (h : m.length % 64 = 63) :
    leftover (m ++ [x]) = [] := by
  unfold leftover
  apply List.drop_eq_nil_of_le
  simp
  omega

/-- The block a full buffer holds is the block the last 64 bytes make. -/
theorem set_full_buffer (e : Engine) (m : List Byte) (x : Byte) (hc : e.cnt.val = 63)
    (hm : m.length % 64 = 63) (hp : e.pending = leftover m) :
    e.buf.set e.cnt.val x = blockAt (m ++ [x]) (m.length / 64) := by
  apply Vector.ext
  intro j hj
  have hget : ∀ (hj' : j < 63), e.buf[j] = m.getD (64 * (m.length / 64) + j) 0 := by
    intro hj'
    have h1 : e.pending[j]? = (leftover m)[j]? := by rw [hp]
    simp only [Engine.pending, leftover, List.getElem?_drop] at h1
    rw [List.getElem?_take_of_lt (by omega)] at h1
    simp only [List.getD_eq_getElem?_getD, ← h1]
    simp [hj]
  rw [Vector.getElem_set]
  simp only [blockAt]
  split
  · rename_i hj63
    have : j = 63 := by omega
    subst this
    have hidx : 64 * (m.length / 64) + 63 = m.length := by omega
    simp [hidx]
  · have hj' : j < 63 := by omega
    rw [hget hj']
    have hlt : 64 * (m.length / 64) + j < m.length := by omega
    simp only [Vector.getElem_mk, List.getElem_toArray, List.getElem_map, List.getElem_range,
      List.getD_eq_getElem?_getD]
    rw [List.getElem?_append_left hlt]

/-- The instance has absorbed the bytes `m` since H was `h0` and BUF was empty. -/
def Engine.Absorbed (e : Engine) (h0 : HState) (m : List Byte) : Prop :=
  e.h = compressN h0 (blocksOf m) ∧ e.cnt.val = m.length % 64 ∧ e.pending = leftover m

/-- Any instance has absorbed its own pending bytes since H was what it is. -/
theorem Engine.absorbed_pending (e : Engine) : e.Absorbed e.h e.pending := by
  have h := e.cnt.isLt
  have hl : e.pending.length < 64 := by simp
  refine ⟨by rw [blocksOf_short hl]; rfl, ?_, (leftover_short hl).symm⟩
  rw [e.pending_length, Nat.mod_eq_of_lt h]

/-- absorb (R110) carries the absorbed bytes on by one. -/
theorem Engine.absorb_absorbed {e : Engine} {h0 : HState} {m : List Byte} (x : Byte)
    (h : e.Absorbed h0 m) : (e.absorb x).Absorbed h0 (m ++ [x]) := by
  obtain ⟨hh, hc, hp⟩ := h
  unfold Engine.absorb
  split
  · rename_i hfull
    have hm : m.length % 64 = 63 := by omega
    refine ⟨?_, ?_, ?_⟩
    · simp only [blocksOf_snoc_full m x hm, compressN, List.foldl_append, List.foldl_cons,
        List.foldl_nil]
      rw [set_full_buffer e m x (by omega) hm hp, hh, compressN]
    · simp only [List.length_append, List.length_singleton]
      show 0 = _
      omega
    · rw [leftover_snoc_full m x hm]
      simp [Engine.pending]
  · rename_i hfull
    have hlt := e.cnt.isLt
    have hm : m.length % 64 + 1 < 64 := by omega
    refine ⟨?_, ?_, ?_⟩
    · simpa [blocksOf_snoc_short m x hm] using hh
    · simp only [List.length_append, List.length_singleton]
      omega
    · rw [leftover_snoc_short m x hm, ← hp]
      simp only [Engine.pending, Vector.toList_set]
      rw [List.take_add_one]
      congr 1
      · exact List.take_set_of_le (Nat.le_refl _)
      · simp

/-- absorb_all (R111) carries the absorbed bytes on by the bytes given. -/
theorem Engine.absorbAll_absorbed {e : Engine} {h0 : HState} {m : List Byte} (s : List Byte)
    (h : e.Absorbed h0 m) : (e.absorbAll s).Absorbed h0 (m ++ s) := by
  induction s generalizing e m with
  | nil => simpa using h
  | cons x s ih => simpa using ih (Engine.absorb_absorbed x h)

/-- All that absorb_all does to H, CNT and BUF[0..CNT) (R110, R111, R114). -/
theorem Engine.absorbAll_spec (e : Engine) (s : List Byte) :
    (e.absorbAll s).h = compressN e.h (blocksOf (e.pending ++ s)) ∧
      (e.absorbAll s).cnt.val = (e.cnt.val + s.length) % 64 ∧
      (e.absorbAll s).pending = leftover (e.pending ++ s) := by
  obtain ⟨h1, h2, h3⟩ := Engine.absorbAll_absorbed s e.absorbed_pending
  exact ⟨h1, by simpa using h2, h3⟩

/-- The padded message is a whole number of blocks (R116): CNT is 0 after the padding. -/
theorem padding_length (c : Fin 64) (total : BitVec 64) :
    (padding c total).length = 1 + (119 - c.val) % 64 + 8 := by
  simp [padding, unbe64]
  omega

theorem padding_fills (c : Fin 64) (total : BitVec 64) :
    (c.val + (padding c total).length) % 64 = 0 := by
  have := c.isLt
  rw [padding_length]
  omega

end Sys2Proof.Machine
end

