-- ==== Sys2Proof/Laws/Decode.lean ====
section
/-! SUPPORT. The operand readers of the frames and the fetch from a command port: one lemma each for what
it can answer (30_encoding R62, R63, R66). -/

namespace Sys2Proof.Machine

/-- Reading LEN needs eight bytes and takes exactly them. -/
theorem readLen_eq_some {bs : List Byte} {n : Nat} {rest : List Byte}
    (h : readLen bs = some (n, rest)) :
    ∃ b0 b1 b2 b3 b4 b5 b6 b7, bs = b0 :: b1 :: b2 :: b3 :: b4 :: b5 :: b6 :: b7 :: rest ∧
      n = (be64 b0 b1 b2 b3 b4 b5 b6 b7).toNat := by
  unfold readLen at h
  split at h
  · cases h
    exact ⟨_, _, _, _, _, _, _, _, rfl, rfl⟩
  · cases h

theorem readLen_eq_none {bs : List Byte} : readLen bs = none ↔ bs.length < 8 := by
  unfold readLen
  split
  · simp
  · rename_i h
    simp only [true_iff]
    by_contra hc
    match bs, hc with
    | b0 :: b1 :: b2 :: b3 :: b4 :: b5 :: b6 :: b7 :: rest, _ =>
      exact h b0 b1 b2 b3 b4 b5 b6 b7 rest rfl
    | [], hc | [_], hc | [_, _], hc | [_, _, _], hc | [_, _, _, _], hc | [_, _, _, _, _], hc
    | [_, _, _, _, _, _], hc | [_, _, _, _, _, _, _], hc => simp at hc

/-- Reading LEN and DATA succeeds exactly when all the bytes are there. -/
theorem readData_eq_some {bs data rest : List Byte} (h : readData bs = some (data, rest)) :
    ∃ n tail, readLen bs = some (n, tail) ∧ n ≤ tail.length ∧ data = tail.take n ∧
      rest = tail.drop n := by
  unfold readData at h
  split at h
  · rename_i n tail hlen
    split at h
    · rename_i hle
      cases h
      exact ⟨n, tail, hlen, hle, rfl, rfl⟩
    · cases h
  · cases h

/-- Reading a block needs 64 bytes and takes exactly them. -/
theorem readBlock_eq_some {bs rest : List Byte} {b : Block} (h : readBlock bs = some (b, rest)) :
    bs = b.toList ++ rest := by
  unfold readBlock at h
  split at h
  · cases h
    simp
  · cases h

theorem readBlock_eq_none {bs : List Byte} : readBlock bs = none ↔ bs.length < 64 := by
  unfold readBlock
  split <;> simp <;> omega

/-- A block's own bytes in front are read back. -/
theorem readBlock_toList (b : Block) (rest : List Byte) :
    readBlock (b.toList ++ rest) = some (b, rest) := by
  unfold readBlock
  have hl : b.toList.length = 64 := by simp
  rw [dif_pos (by simp)]
  simp only [List.drop_left' hl, Option.some.injEq, Prod.mk.injEq, and_true]
  apply Vector.ext
  intro i hi
  simp [List.take_left' hl]

/-- All that the fetch can answer (R66, R142, R143). -/
theorem fetch_cases (hc : Bool) (port : List PortByte) :
    (∃ i rest, decodeWith hc (portBytes port) = .command i rest ∧
        interleaved (port.take (port.length - rest.length)) = false ∧
        fetch hc port = .command i (port.drop (port.length - rest.length))) ∨
      (∃ i rest, decodeWith hc (portBytes port) = .command i rest ∧
        interleaved (port.take (port.length - rest.length)) = true ∧
        fetch hc port = .concurrent) ∨
      (decodeWith hc (portBytes port) = .incomplete ∧ interleaved port = true ∧
        fetch hc port = .concurrent) ∨
      (decodeWith hc (portBytes port) = .incomplete ∧ interleaved port = false ∧
        fetch hc port = .waiting) ∨
      (∃ opc, decodeWith hc (portBytes port) = .reserved opc ∧ fetch hc port = .reserved) := by
  unfold fetch
  split
  · rename_i opc h
    exact .inr (.inr (.inr (.inr ⟨opc, h, rfl⟩)))
  · rename_i h
    split
    · rename_i hi
      exact .inr (.inr (.inl ⟨h, hi, rfl⟩))
    · rename_i hi
      exact .inr (.inr (.inr (.inl ⟨h, by simpa using hi, rfl⟩)))
  · rename_i i rest h
    split
    · rename_i hi
      exact .inr (.inl ⟨i, rest, h, hi, rfl⟩)
    · rename_i hi
      exact .inl ⟨i, rest, h, by simpa using hi, rfl⟩

@[simp] theorem portBytes_append (p q : List PortByte) :
    portBytes (p ++ q) = portBytes p ++ portBytes q := by simp [portBytes]
@[simp] theorem portBytes_sentBytes (tx : Nat) (bs : List Byte) :
    portBytes (sentBytes tx bs) = bs := by simp [portBytes, sentBytes, Function.comp_def]
@[simp] theorem portBytes_length (p : List PortByte) : (portBytes p).length = p.length := by
  simp [portBytes]
@[simp] theorem sentBytes_length (tx : Nat) (bs : List Byte) :
    (sentBytes tx bs).length = bs.length := by simp [sentBytes]
@[simp] theorem sentBytes_append (tx : Nat) (bs cs : List Byte) :
    sentBytes tx (bs ++ cs) = sentBytes tx bs ++ sentBytes tx cs := by simp [sentBytes]

/-- The bytes of one transmission are not interleaved. -/
@[simp] theorem interleaved_sentBytes (tx : Nat) (bs : List Byte) :
    interleaved (sentBytes tx bs) = false := by
  cases bs with
  | nil => rfl
  | cons b bs => simp [sentBytes, interleaved]

/-- A whole frame of one transmission at the front of the port is fetched, whatever follows it. -/
theorem fetch_sent {hc : Bool} {tx : Nat} {frame : List Byte} {i : Instr} {more : List PortByte}
    (h : decodeWith hc (frame ++ portBytes more) = .command i (portBytes more)) :
    fetch hc (sentBytes tx frame ++ more) = .command i more := by
  unfold fetch
  rw [portBytes_append, portBytes_sentBytes, h]
  simp

end Sys2Proof.Machine
end

