-- ==== Sys2Proof/Laws/Exec.lean ====
section
/-! SUPPORT. What a command and a step can do, said once: `exec_eq` for the five commands, `step_cases`
for the step of the platform. Every frame and every invariant follows from these. -/

namespace Sys2Proof.Machine

/-- What a command makes of the message state of its instance (R95, R112, R113, R117, R118). -/
def Engine.afterInstr (i : Instr) (e : Engine) : Engine :=
  match i with
  | .init => e.startMessage
  | .update data => if e.phase = .finalized then e else e.append data
  | .finalize => if e.phase = .finalized then e else e.finish
  | .hash data => e.hashMessage data
  | .compress _ _ => e

/-- The response frame of a command (R67). -/
def Engine.replyTo (i : Instr) (e : Engine) : List Byte :=
  match i with
  | .init => [0x00]
  | .update _ => if e.phase = .finalized then [0x01] else [0x00]
  | .finalize => if e.phase = .finalized then [0x01] else 0x00 :: serialise e.finish.h
  | .hash data => 0x00 :: serialise (e.hashMessage data).h
  | .compress s b => 0x00 :: serialise (compress s b)

@[simp] theorem Engine.append_phase (e : Engine) (d : List Byte) :
    (e.append d).phase = .accumulating := rfl
@[simp] theorem Engine.append_total (e : Engine) (d : List Byte) :
    (e.append d).total = e.total + BitVec.ofNat 64 d.length := by simp [Engine.append]
@[simp] theorem Engine.append_id (e : Engine) (d : List Byte) : (e.append d).id = e.id := by
  simp [Engine.append]
@[simp] theorem Engine.append_cmdPort (e : Engine) (d : List Byte) :
    (e.append d).cmdPort = e.cmdPort := by simp [Engine.append]
@[simp] theorem Engine.append_rspPending (e : Engine) (d : List Byte) :
    (e.append d).rspPending = e.rspPending := by simp [Engine.append]
@[simp] theorem Engine.append_rspPort (e : Engine) (d : List Byte) :
    (e.append d).rspPort = e.rspPort := by simp [Engine.append]
@[simp] theorem Engine.append_hostReady (e : Engine) (d : List Byte) :
    (e.append d).hostReady = e.hostReady := by simp [Engine.append]

@[simp] theorem Engine.finish_phase (e : Engine) : e.finish.phase = .finalized := rfl
@[simp] theorem Engine.finish_total (e : Engine) : e.finish.total = e.total := by
  simp [Engine.finish]
@[simp] theorem Engine.finish_id (e : Engine) : e.finish.id = e.id := by simp [Engine.finish]
@[simp] theorem Engine.finish_cmdPort (e : Engine) : e.finish.cmdPort = e.cmdPort := by
  simp [Engine.finish]
@[simp] theorem Engine.finish_rspPending (e : Engine) : e.finish.rspPending = e.rspPending := by
  simp [Engine.finish]
@[simp] theorem Engine.finish_rspPort (e : Engine) : e.finish.rspPort = e.rspPort := by
  simp [Engine.finish]
@[simp] theorem Engine.finish_hostReady (e : Engine) : e.finish.hostReady = e.hostReady := by
  simp [Engine.finish]

/-- All that the body of UPDATE does to H, CNT and BUF[0..CNT) (R113, R114). -/
theorem Engine.append_spec (e : Engine) (d : List Byte) :
    (e.append d).h = compressN e.h (blocksOf (e.pending ++ d)) ∧
      (e.append d).cnt.val = (e.cnt.val + d.length) % 64 ∧
      (e.append d).pending = leftover (e.pending ++ d) :=
  Engine.absorbAll_spec { e with total := e.total + BitVec.ofNat 64 d.length } d

/-- All that the body of FINALIZE does to H and CNT (R117). -/
theorem Engine.finish_spec (e : Engine) :
    e.finish.h = compressN e.h (blocksOf (e.pending ++ padding e.cnt e.total)) ∧
      e.finish.cnt.val = 0 := by
  obtain ⟨h1, h2, -⟩ := Engine.absorbAll_spec e (padding e.cnt e.total)
  exact ⟨h1, by rw [padding_fills] at h2; exact h2⟩

/-- A command touches no port of its instance but by its response, and no identifier. -/
theorem Engine.afterInstr_ports (i : Instr) (e : Engine) :
    (e.afterInstr i).id = e.id ∧ (e.afterInstr i).cmdPort = e.cmdPort ∧
      (e.afterInstr i).rspPending = e.rspPending ∧ (e.afterInstr i).rspPort = e.rspPort ∧
      (e.afterInstr i).hostReady = e.hostReady := by
  cases i with
  | init => exact ⟨rfl, rfl, rfl, rfl, rfl⟩
  | update d => unfold Engine.afterInstr; dsimp only; split <;> simp
  | finalize => unfold Engine.afterInstr; dsimp only; split <;> simp
  | hash d => simp [Engine.afterInstr, Engine.hashMessage]
  | compress s b => exact ⟨rfl, rfl, rfl, rfl, rfl⟩

/-- Everything a command can do: the refusal LengthCeiling where R142 says so, and otherwise a next
state, in which only its own instance has changed. No command faults. -/
theorem exec_eq (i : Instr) (s : State) :
    (overCeiling i s.self ∧ exec i s = .refused .lengthCeiling) ∨
      (¬ overCeiling i s.self ∧
        exec i s = .next (s.onSelf (fun e =>
          { e.afterInstr i with rspPending := e.rspPending ++ e.replyTo i }))) := by
  cases i with
  | init => exact .inr ⟨id, rfl⟩
  | update d =>
    by_cases hp : s.self.phase = .finalized
    · refine .inr ⟨fun h => h.1 hp, ?_⟩
      simp [exec, execUpdate, hp, raiseInvalidState_eq, State.onSelf, Engine.afterInstr,
        Engine.replyTo]
    · by_cases hl : maxTotal < s.self.total.toNat + d.length
      · exact .inl ⟨⟨hp, hl⟩, by simp [exec, execUpdate, hp, hl]⟩
      · refine .inr ⟨fun h => hl h.2, ?_⟩
        simp [exec, execUpdate, hp, hl, respond_eq, State.onSelf, Engine.afterInstr,
          Engine.replyTo, responseFrame, Status.byte]
  | finalize =>
    refine .inr ⟨id, ?_⟩
    by_cases hp : s.self.phase = .finalized
    · simp [exec, execFinalize, hp, raiseInvalidState_eq, State.onSelf, Engine.afterInstr,
        Engine.replyTo]
    · simp [exec, execFinalize, hp, respond_eq, State.onSelf, Engine.afterInstr,
        Engine.replyTo, responseFrame, Status.byte]
  | hash d =>
    by_cases hl : maxTotal < d.length
    · exact .inl ⟨hl, by simp [exec, execHash, hl]⟩
    · refine .inr ⟨hl, ?_⟩
      simp [exec, execHash, hl, respond_eq, State.onSelf, Engine.afterInstr, Engine.replyTo,
        responseFrame, Status.byte, Engine.hashMessage]
  | compress st b => exact .inr ⟨id, rfl⟩

/-- A command that gives a next state. -/
theorem exec_next {i : Instr} {s t : State} (h : exec i s = .next t) :
    ¬ overCeiling i s.self ∧
      t = s.onSelf (fun e => { e.afterInstr i with rspPending := e.rspPending ++ e.replyTo i }) := by
  rcases exec_eq i s with ⟨-, hr⟩ | ⟨hc, hn⟩
  · rw [hr] at h; cases h
  · rw [hn] at h; cases h; exact ⟨hc, rfl⟩

/-- A command that is not over the ceiling gives a next state. -/
theorem exec_completes {i : Instr} {s : State} (h : ¬ overCeiling i s.self) :
    exec i s = .next (s.onSelf (fun e =>
      { e.afterInstr i with rspPending := e.rspPending ++ e.replyTo i })) := by
  rcases exec_eq i s with ⟨hc, -⟩ | ⟨-, hn⟩
  · exact absurd hc h
  · exact hn

/-- What one instance can go through in one step of the platform, by what happens at its ports. -/
inductive EngineMove (hasCompress : Bool) (e : Engine) : PortAction → Engine → Prop where
  /-- it takes its next command from the port and runs it (R48) -/
  | command (i : Instr) (rest : List PortByte) (idle : e.rspPending = [])
      (taken : fetch hasCompress e.cmdPort = .command i rest)
      (meant : ¬ overCeiling i e) :
      EngineMove hasCompress e .run
        ({ ({ e with cmdPort := rest } : Engine).afterInstr i with
            rspPending := e.rspPending ++ e.replyTo i } : Engine).deliver
  /-- its turn finds it with no step (R167) -/
  | waits : EngineMove hasCompress e .run e
  /-- the host sends it bytes (R60) -/
  | send (tx : Nat) (bytes : List Byte) :
      EngineMove hasCompress e (.send tx bytes) { e with cmdPort := e.cmdPort ++ sentBytes tx bytes }
  /-- the host accepts some of its response (R167) -/
  | accept (n : Nat) : EngineMove hasCompress e (.accept n) (e.acceptBytes n)
  /-- the host begins or stops accepting (R167) -/
  | ready (on : Bool) :
      EngineMove hasCompress e (.ready on) ({ e with hostReady := on } : Engine).deliver
  /-- it is reset (R160) -/
  | reset : EngineMove hasCompress e .reset e.assertReset

/-- Everything a command of the instance that has its turn does when it gives a next state: it takes a
frame from the port, runs it, and hands its response to the host. -/
theorem runCommand_ran {s t : State} (h : runCommand s = .next t) :
    ∃ i rest, s.self.rspPending = [] ∧ fetch s.hasCompress s.self.cmdPort = .command i rest ∧
      ¬ overCeiling i s.self ∧
      t = s.onSelf (fun e =>
        ({ ({ e with cmdPort := rest } : Engine).afterInstr i with
            rspPending := e.rspPending ++ e.replyTo i } : Engine).deliver) := by
  unfold runCommand at h
  split at h
  · cases h
  · rename_i hidle
    split at h
    · rename_i i rest hf
      rcases exec_eq i (s.onSelf (fun e => { e with cmdPort := rest })) with ⟨-, hr⟩ | ⟨hc, hn⟩
      · rw [hr] at h; cases h
      · rw [hn] at h
        cases h
        have hc' : ¬ overCeiling i s.self := by
          intro hh
          apply hc
          cases i <;> exact hh
        have hrep : ({ s.self with cmdPort := rest } : Engine).replyTo i = s.self.replyTo i := by
          cases i <;> first | rfl | skip
          · simp only [Engine.replyTo]
            split
            · rfl
            · rw [(Engine.finish_spec _).1, (Engine.finish_spec _).1]; rfl
          · rename_i d
            simp only [Engine.replyTo, Engine.hashMessage]
            rw [(Engine.finish_spec _).1, (Engine.finish_spec _).1,
              (Engine.append_spec _ d).1, (Engine.append_spec _ d).1,
              (Engine.append_spec _ d).2.2, (Engine.append_spec _ d).2.2]
            simp only [Engine.append_total]
            have : (({ s.self with cmdPort := rest } : Engine).startMessage.append d).cnt =
                (s.self.startMessage.append d).cnt := by
              apply Fin.ext
              rw [(Engine.append_spec _ d).2.1, (Engine.append_spec _ d).2.1]
              rfl
            rw [this]
            rfl
        refine ⟨i, rest, by simpa using hidle, hf, hc', ?_⟩
        simp only [State.onSelf]
        rw [← hrep]
    · cases h
    · cases h
    · cases h

/-- One command of the instance that has its turn. -/
theorem runCommand_next {s t : State} (h : runCommand s = .next t) :
    EngineMove s.hasCompress s.self .run t.self ∧ t = s.onSelf (fun _ => t.self) := by
  obtain ⟨i, rest, hidle, hf, hc, rfl⟩ := runCommand_ran h
  exact ⟨.command i rest hidle hf hc, rfl⟩

/-- A turn given to an instance. -/
theorem takeTurn_next {s t : State} (h : takeTurn s = .next t) :
    EngineMove s.hasCompress s.self .run t.self ∧ t = s.onSelf (fun _ => t.self) := by
  unfold takeTurn at h
  split at h
  · rename_i u hu
    cases h
    exact runCommand_next hu
  · cases h
    exact ⟨.waits, rfl⟩
  · cases h

/-- One act at an instance's ports. -/
theorem portAction_next {a : PortAction} {s t : State} (h : portAction a s = .next t) :
    EngineMove s.hasCompress s.self a t.self ∧ t = s.onSelf (fun _ => t.self) := by
  cases a with
  | send tx bytes => cases h; exact ⟨.send tx bytes, rfl⟩
  | accept n => cases h; exact ⟨.accept n, rfl⟩
  | ready on => cases h; exact ⟨.ready on, rfl⟩
  | reset => cases h; exact ⟨.reset, rfl⟩
  | run => exact takeTurn_next h

/-- Writing the focused instance is writing the instance of its index. -/
theorem State.onSelf_engines (s : State) (e : Engine) :
    (s.onSelf (fun _ => e)).engines = s.engines.set s.before.length e := by
  simp [State.onSelf, State.engines]

/-- An instance waits exactly when its response is not accepted or its frame is not complete (R167). -/
theorem Engine.waits_iff {hasCompress : Bool} {e : Engine} :
    e.waits hasCompress = true ↔ e.rspPending ≠ [] ∨ fetch hasCompress e.cmdPort = .waiting := by
  unfold Engine.waits
  split <;> rename_i h <;> simp_all

/-- A command faults exactly when its instance waits. -/
theorem runCommand_fault_iff {s : State} :
    (∃ r, runCommand s = .fault r) ↔ s.self.waits s.hasCompress = true := by
  rw [Engine.waits_iff]
  unfold runCommand
  by_cases hidle : s.self.rspPending = []
  · simp only [hidle, ne_eq, not_true_eq_false, if_false, false_or]
    cases hf : fetch s.hasCompress s.self.cmdPort with
    | command i rest =>
      rcases exec_eq i (s.onSelf (fun e => { e with cmdPort := rest })) with ⟨-, h⟩ | ⟨-, h⟩ <;>
        simp [h, afterCommand]
    | waiting => simp
    | reserved => simp
    | concurrent => simp
  · simp [hidle]

/-- The turn is some instance's. -/
theorem State.turn_lt (s : State) : s.turn < s.engines.length := by
  have hself : s.before.length < s.engines.length := by simp [State.engines]
  unfold State.turn
  split
  · cases h : s.engines.findIdx? (fun e => !e.waits s.hasCompress) with
    | none => simpa using hself
    | some k =>
      obtain ⟨hk, -⟩ := List.findIdx?_eq_some_iff_getElem.mp h
      simpa using hk
  · exact hself

/-- Giving the turn keeps the instances in order and moves only which of them is `self`. -/
theorem State.giveTurn_spec (s : State) :
    s.focus s.turn = some s.giveTurn ∧ s.giveTurn.engines = s.engines ∧
      s.engines[s.turn]? = some s.giveTurn.self ∧ s.giveTurn.before.length = s.turn ∧
      s.giveTurn.inputs = s.inputs ∧ s.giveTurn.hasCompress = s.hasCompress := by
  cases h : s.focus s.turn with
  | none =>
    have := State.focus_none_iff.mp h
    have := s.turn_lt
    omega
  | some u =>
    have hu : s.giveTurn = u := by simp [State.giveTurn, h]
    rw [hu]
    exact ⟨rfl, State.focus_engines h⟩

/-- While `self` has a step, the turn is its own. -/
theorem State.turn_self {s : State} (h : s.self.waits s.hasCompress = false) :
    s.turn = s.before.length := by simp [State.turn, h]

/-- Where the turn is the own one of `self`, nothing moves. -/
theorem State.giveTurn_self {s : State} (h : s.turn = s.before.length) : s.giveTurn = s := by
  simp [State.giveTurn, State.focus, State.engines, h]

/-- With no input left, the instance whose turn it is runs its next command. -/
theorem step_turn {s : State} (h : s.inputs = []) : step s = runCommand s.giveTurn := by
  simp [step, stepPlatform, h]

/-- With no input left, `self` runs its next command while it has one. -/
theorem step_self {s : State} (h : s.inputs = []) (hw : s.self.waits s.hasCompress = false) :
    step s = runCommand s := by
  rw [step_turn h, State.giveTurn_self (State.turn_self hw)]

/-- On an instance's turn, a refusal of its next command is the machine's. -/
theorem TurnOf.step_refused {s : State} {k : Nat} {e : Engine} (h : TurnOf s k)
    (he : s.engines[k]? = some e) :
    ∃ u : State, u.self = e ∧ u.hasCompress = s.hasCompress ∧
      ∀ r, runCommand u = .refused r → step s = .refused r := by
  rcases h with ⟨hin, rfl⟩ | hin
  · obtain ⟨-, -, hget, -, -, hc⟩ := s.giveTurn_spec
    rw [he] at hget
    exact ⟨s.giveTurn, (Option.some.inj hget).symm, hc, fun r hr => by rw [step_turn hin, hr]⟩
  · obtain ⟨evs, hevs⟩ := List.head?_eq_some_iff.mp hin
    cases hu : ({ s with inputs := evs } : State).focus k with
    | none =>
      have := State.focus_none_iff.mp hu
      have hk := (List.getElem?_eq_some_iff.mp he).1
      have : s.engines.length ≤ k := this
      omega
    | some u =>
      obtain ⟨-, hget, -, -, hc⟩ := State.focus_engines hu
      have hget' : s.engines[k]? = some u.self := hget
      rw [he] at hget'
      refine ⟨u, (Option.some.inj hget').symm, hc, fun r hr => ?_⟩
      simp [step, stepPlatform, hevs, takeInput, hu, portAction, takeTurn, hr]

/-- If any instance has a step, the turn is one's that has (R166). -/
theorem State.turn_enabled {s : State} {e : Engine} (hmem : e ∈ s.engines)
    (h : e.waits s.hasCompress = false) : s.giveTurn.self.waits s.hasCompress = false := by
  obtain ⟨-, -, hget, -⟩ := s.giveTurn_spec
  by_cases hself : s.self.waits s.hasCompress = true
  · cases hfind : s.engines.findIdx? (fun e => !e.waits s.hasCompress) with
    | none =>
      have := List.findIdx?_eq_none_iff.mp hfind e hmem
      simp [h] at this
    | some k =>
      have hturn : s.turn = k := by simp [State.turn, hself, hfind]
      obtain ⟨hk, hp, -⟩ := List.findIdx?_eq_some_iff_getElem.mp hfind
      rw [hturn, List.getElem?_eq_getElem hk] at hget
      rw [← Option.some.inj hget]
      simpa using hp
  · rw [State.giveTurn_self (State.turn_self (by simpa using hself))]
    simpa using hself

/-- If no instance has a step, the turn is the own one of `self`. -/
theorem State.turn_stuck {s : State} (h : ∀ e ∈ s.engines, e.waits s.hasCompress = true) :
    s.turn = s.before.length := by
  have : s.engines.findIdx? (fun e => !e.waits s.hasCompress) = none := by
    rw [List.findIdx?_eq_none_iff]
    intro e he
    simp [h e he]
  simp [State.turn, this]

/-- Everything one step can do (R48, R50, R51, R153, R160, R166, R167): with no input left, the instance
whose turn it is takes a command; with an input, the instance it names goes through one move, or
power-on resets all of them. The instances keep their number and order, and only the one concerned
changes. -/
theorem step_cases {s t : State} (h : step s = .next t) :
    (s.inputs = [] ∧ EngineMove s.hasCompress s.giveTurn.self .run t.self ∧
        t = s.giveTurn.onSelf (fun _ => t.self)) ∨
      (∃ rest, s.inputs = .powerOn :: rest ∧ t = ({ s with inputs := rest } : State).powerOn) ∨
      (∃ k a rest e e', s.inputs = .port k a :: rest ∧ s.engines[k]? = some e ∧
        EngineMove s.hasCompress e a e' ∧ t.engines = s.engines.set k e' ∧ t.inputs = rest ∧
        t.hasCompress = s.hasCompress) := by
  unfold step stepPlatform at h
  split at h
  · rename_i hin
    obtain ⟨hmove, ht⟩ := runCommand_next h
    rw [s.giveTurn_spec.2.2.2.2.2] at hmove
    exact .inl ⟨hin, hmove, ht⟩
  · rename_i ev rest hin
    unfold takeInput at h
    split at h
    · cases h
      exact .inr (.inl ⟨rest, hin, rfl⟩)
    · rename_i k a
      split at h
      · rename_i u hu
        obtain ⟨he, hk, hb, hi, hcomp⟩ := State.focus_engines hu
        obtain ⟨hmove, ht⟩ := portAction_next h
        refine .inr (.inr ⟨k, a, rest, u.self, t.self, hin, hk, ?_, ?_, ?_, ?_⟩)
        · rw [hcomp] at hmove; exact hmove
        · rw [ht, State.onSelf_engines, hb, he]; rfl
        · rw [ht]; exact hi
        · rw [ht]; exact hcomp
      · cases h

end Sys2Proof.Machine
end

