-- ==== Sys2Proof/Laws/PerInstr.lean ====
section
/-! SUPPORT. A law for all instructions, one lemma per constructor: the opcode byte of a command's frame
and the frame's length (30_encoding R61, R64, R66). -/

namespace Sys2Proof.Laws.OpcodeByte

open Sys2Proof Sys2Proof.Machine

/-- The first byte of the command's frame is its opcode's byte, which every build that defines the
opcode decodes as that opcode (R64), and the frame has the length of its format: 1, 9 + LEN or 97
bytes (R61). -/
def Statement (i : Instr) : Prop :=
  (encode i).head? = some i.opcode.byte ∧
    (∀ hasCompress, i.opcode ∈ Opcode.defined hasCompress →
      Opcode.ofByte hasCompress i.opcode.byte = some i.opcode) ∧
    (encode i).length =
      match i with
      | .init => 1
      | .update data => 9 + data.length
      | .finalize => 1
      | .hash data => 9 + data.length
      | .compress _ _ => 97

theorem init : Statement .init := ⟨rfl, by decide, rfl⟩

theorem update (data : List Byte) : Statement (.update data) :=
  ⟨rfl, by simp only [Instr.opcode]; decide, by
    simp [encode, Instr.operandBytes, unbe64]; omega⟩

theorem finalize : Statement .finalize := ⟨rfl, by decide, rfl⟩

theorem hash (data : List Byte) : Statement (.hash data) :=
  ⟨rfl, by simp only [Instr.opcode]; decide, by
    simp [encode, Instr.operandBytes, unbe64]; omega⟩

theorem compress (state : HState) (block : Block) : Statement (.compress state block) :=
  ⟨rfl, by simp only [Instr.opcode]; decide, by
    simp [encode, Instr.operandBytes, serialise, unbe32]⟩

end Sys2Proof.Laws.OpcodeByte
end

