-- ==== Sys2Proof/Tests/Slice0.lean ====
section
/-! SUPPORT. Tests of the model: expected values from 95_test_vectors and from the encoding tables of
30_encoding, never from the model; and, for each statement with hypotheses, a state and operands that
meet all of them (`test_witness_…`). -/

namespace Sys2Proof.Tests

open Sys2Proof Sys2Proof.Machine

/-- One instance, as given. -/
def one (e : Engine) : State := { State.reset with self := e }

/-- The instance after reset, with its message state as given and BUF[0..CNT) zeros. -/
def engine (phase : Phase) (cnt : Fin 64) (total : BitVec 64) : Engine :=
  { Engine.afterReset 0 with phase := phase, cnt := cnt, total := total }

/-- One instance with that message state. -/
def inPhase (phase : Phase) (cnt : Fin 64) (total : BitVec 64) : State := one (engine phase cnt total)

/-- One instance right after reset whose command port holds these bytes, sent as one transmission. -/
def sent (bs : List Byte) : State :=
  one { Engine.afterReset 0 with cmdPort := sentBytes 7 bs }

/-- Two instances right after reset, and these inputs. -/
def two (inputs : List Event) : State := { State.platform 1 with inputs := inputs }

/-- Two instances, the first to move in Finalized with a command waiting; and these inputs. -/
def twoBusy (inputs : List Event) : State :=
  { two inputs with self := { engine .finalized 0 3 with cmdPort := sentBytes 7 [0x01] } }

/-- Two instances, the first to move with nothing at its port, the second right after reset but for this
port; and these inputs. -/
def laterBusy (port : List PortByte) (inputs : List Event) : State :=
  { two inputs with after := [{ Engine.afterReset 1 with cmdPort := port }] }

/-- The response bytes an outcome leaves being emitted by the instance to move. -/
def answer : Host.Outcome State Fault Refusal → Option (List Byte)
  | .next s => some s.self.rspPending
  | _ => none

/-- The response bytes the host has accepted from the instance to move. -/
def accepted : Host.Outcome State Fault Refusal → Option (List Byte)
  | .next s => some s.self.rspPort
  | _ => none

/-- PHASE, CNT, TOTAL and H of the instance to move. -/
def messageState : Host.Outcome State Fault Refusal → Option (Phase × Nat × Nat × HState)
  | .next s => some (s.self.phase, s.self.cnt.val, s.self.total.toNat, s.self.h)
  | _ => none

/-- The padded "abc" block of 95_test_vectors L2-W. -/
def abcBlock : Block :=
  ((((((Vector.replicate 64 0).set 0 0x61).set 1 0x62).set 2 0x63).set 3 0x80).set 63 0x18)

/-! ### WellFormed: an ill-formed term for each check -/

theorem test_update_too_long : (Instr.update (List.replicate (2 ^ 64) 0)).wf = false := by
  simp only [Instr.wf, lenFits, List.length_replicate]; decide

theorem test_hash_too_long : (Instr.hash (List.replicate (2 ^ 64) 0)).wf = false := by
  simp only [Instr.wf, lenFits, List.length_replicate]; decide

theorem test_longest_update_is_wf : (Instr.update (List.replicate (2 ^ 64 - 1) 0)).wf = true := by
  simp only [Instr.wf, lenFits, List.length_replicate]; decide

/-! ### Decoding: frames written out from 30_encoding R61 to R65 -/

theorem test_decode_init : decode [0b00000001] = .command .init [] := by decide

theorem test_decode_finalize : decode [0b00000011, 0x01] = .command .finalize [0x01] := by decide

theorem test_decode_update :
    decode [0b00000010, 0, 0, 0, 0, 0, 0, 0, 2, 0x68, 0x69, 0x03] =
      .command (.update [0x68, 0x69]) [0x03] := by decide

theorem test_decode_hash :
    decode [0b00000100, 0, 0, 0, 0, 0, 0, 0, 1, 0x80] = .command (.hash [0x80]) [] := by decide

/-- STATE is eight big-endian words, S[0] first, then the block's 64 bytes in order (R63). -/
theorem test_decode_compress :
    decode ([0b00000101] ++ (List.range 32).map (BitVec.ofNat 8) ++
        (List.range 64).map (fun k => BitVec.ofNat 8 (100 + k))) =
      .command (.compress
        ⟨0x00010203, 0x04050607, 0x08090a0b, 0x0c0d0e0f, 0x10111213, 0x14151617, 0x18191a1b,
          0x1c1d1e1f⟩ (Vector.ofFn (fun k : Fin 64 => BitVec.ofNat 8 (100 + k.val)))) [] := by
  decide +kernel

/-- A frame one byte short has no step yet, and a build without COMPRESS reserves 0x05 (R65, R66). -/
theorem test_decode_incomplete :
    decode [0b00000010, 0, 0, 0, 0, 0, 0, 0, 2, 0x68] = .incomplete ∧
      decode (0b00000101 :: List.replicate 95 0) = .incomplete ∧ decode [] = .incomplete ∧
      decodeWith false [0b00000101] = .reserved 0x05 := by decide +kernel

/-- LEN has no sign extension (R62): with its top bit set it is 2^63, and the frame has 2^63 + 9 bytes. -/
theorem test_decode_length_unsigned :
    decodeLength true [0x02, 0x80, 0, 0, 0, 0, 0, 0, 0] = .known (2 ^ 63 + 9) := by decide +kernel

/-! ### The table words, first instruction after reset -/

theorem test_table_words :
    decodeTableWord 8 0x01 = some .init ∧ decodeTableWord 8 0x02 = some (.update []) ∧
      decodeTableWord 8 0x03 = some .finalize ∧ decodeTableWord 8 0x04 = some (.hash []) ∧
      decodeTableWord 8 0x05 =
        some (.compress ⟨0, 0, 0, 0, 0, 0, 0, 0⟩ (Vector.replicate 64 0)) ∧
      decodeTableWord 8 0x00 = none ∧ decodeTableWord 8 0x06 = none := by decide +kernel

theorem test_table_words_run :
    accepted (step (State.reset.withFetchWord 8 0x01)) = some [0x00] ∧
      accepted (step (State.reset.withFetchWord 8 0x02)) = some [0x00] ∧
      (accepted (step (State.reset.withFetchWord 8 0x03))).map List.length = some 33 ∧
      (accepted (step (State.reset.withFetchWord 8 0x04))).map List.length = some 33 ∧
      (accepted (step (State.reset.withFetchWord 8 0x05))).map List.length = some 33 := by
  decide +kernel

/-! ### One command each, values of 95_test_vectors -/

/-- L2-I: INIT from Finalized with TOTAL 3. -/
theorem test_init_from_finalized :
    messageState (exec .init (inPhase .finalized 0 3)) = some (.empty, 0, 0, initialState) ∧
      answer (exec .init (inPhase .finalized 0 3)) = some [0x00] := by decide +kernel

/-- L2-U U3 and U1: 30 bytes, and the empty UPDATE, which still leaves Empty. -/
theorem test_update_short :
    messageState (exec (.update (List.replicate 30 0x61)) State.reset) =
        some (.accumulating, 30, 30, initialState) ∧
      messageState (exec (.update []) State.reset) = some (.accumulating, 0, 0, initialState) := by
  decide +kernel

/-- L2-U U7: the 65 bytes 00 … 40, one compression, one byte left. -/
theorem test_update_drains :
    messageState (exec (.update ((List.range 65).map (BitVec.ofNat 8))) State.reset) =
      some (.accumulating, 1, 65,
        ⟨0xfc99a2df, 0x88f42a7a, 0x7bb9d180, 0x33cdc6a2, 0x0256755f, 0x9d5b9a50, 0x44a9cc31,
          0x5abe84a7⟩) := by decide +kernel

/-- L2-F F1: FINALIZE right after reset returns the digest of the empty message. -/
theorem test_finalize_empty :
    answer (exec .finalize State.reset) = some [0x00,
      0xe3, 0xb0, 0xc4, 0x42, 0x98, 0xfc, 0x1c, 0x14, 0x9a, 0xfb, 0xf4, 0xc8, 0x99, 0x6f, 0xb9,
      0x24, 0x27, 0xae, 0x41, 0xe4, 0x64, 0x9b, 0x93, 0x4c, 0xa4, 0x95, 0x99, 0x1b, 0x78, 0x52,
      0xb8, 0x55] := by decide +kernel

/-- L2-F F4 and F6: a second FINALIZE and an UPDATE after it answer INVALID_STATE alone. -/
theorem test_invalid_state :
    answer (exec .finalize (inPhase .finalized 0 3)) = some [0x01] ∧
      answer (exec (.update []) (inPhase .finalized 0 3)) = some [0x01] ∧
      messageState (exec .finalize (inPhase .finalized 0 3)) =
        some (.finalized, 0, 3, initialState) := by decide +kernel

/-- R118's worked example (L2-S, 56 bytes of "a"): two tail compressions. -/
theorem test_hash_two_tail_blocks :
    answer (exec (.hash (List.replicate 56 0x61)) State.reset) = some [0x00,
      0xb3, 0x54, 0x39, 0xa4, 0xac, 0x6f, 0x09, 0x48, 0xb6, 0xd6, 0xf9, 0xe3, 0xc6, 0xaf, 0x0f,
      0x5f, 0x59, 0x0c, 0xe2, 0x0f, 0x1b, 0xde, 0x70, 0x90, 0xef, 0x79, 0x70, 0x68, 0x6e, 0xc6,
      0x73, 0x8a] := by decide +kernel

/-- L2-S, the byte 0x80: a message byte that equals the padding marker; from Finalized. -/
theorem test_hash_marker_byte :
    answer (exec (.hash [0x80]) (inPhase .finalized 0 3)) = some [0x00,
      0x76, 0xbe, 0x8b, 0x52, 0x8d, 0x00, 0x75, 0xf7, 0xaa, 0xe9, 0x8d, 0x6f, 0xa5, 0x7a, 0x6d,
      0x3c, 0x83, 0xae, 0x48, 0x0a, 0x84, 0x69, 0xe6, 0x68, 0xd7, 0xb0, 0xaf, 0x96, 0x89, 0x95,
      0xac, 0x71] := by decide +kernel

/-- L2-C: COMPRESS of the all-one state and the all-zero block, in Finalized. -/
theorem test_compress_all_ones :
    answer (exec (.compress
        ⟨0xffffffff, 0xffffffff, 0xffffffff, 0xffffffff, 0xffffffff, 0xffffffff, 0xffffffff,
          0xffffffff⟩ (Vector.replicate 64 0)) (inPhase .finalized 0 3)) =
      some [0x00,
        0x25, 0x26, 0x08, 0x09, 0x56, 0xc9, 0x4b, 0xa8, 0xe7, 0xd6, 0xdd, 0x48, 0x22, 0x2d, 0xf1,
        0xd3, 0xf9, 0x14, 0xc4, 0xb0, 0xb8, 0x23, 0xbe, 0xb6, 0xe8, 0xce, 0xbb, 0x7a, 0xdd, 0xcd,
        0xff, 0x59] := by decide +kernel

/-- L2-P, L2-L: the word primitives on rows of the tables. -/
theorem test_word_primitives :
    rotr 0x80000000 25 = 0x00000040 ∧ shr 0x80000000 3 = 0x10000000 ∧
      bigSigma0 0x12345678 = 0x66146474 ∧ bigSigma1 0x12345678 = 0x3561abda ∧
      smallSigma0 0x80000000 = 0x11002000 ∧ smallSigma1 0x80000000 = 0x00205000 ∧
      ch 0xf0f0f0f0 0x12345678 0x9abcdef0 = 0x1a3c5e70 ∧
      maj 0xf0f0f0f0 0x12345678 0x9abcdef0 = 0x92b4d6f0 := by decide

/-- 10_state R35: K[t] at both ends of each row of its table. -/
theorem test_round_constants :
    ∀ row ∈ ([(0, 0x428a2f98), (7, 0xab1c5ed5), (8, 0xd807aa98), (15, 0xc19bf174),
        (16, 0xe49b69c1), (23, 0x76f988da), (24, 0x983e5152), (31, 0x14292967),
        (32, 0x27b70a85), (39, 0x92722c85), (40, 0xa2bfe8a1), (47, 0x106aa070),
        (48, 0x19a4c116), (55, 0x682e6ff3), (56, 0x748f82ee), (63, 0xc67178f2)] :
        List (Nat × Word)), roundConstants[row.1]? = some row.2 := by decide +kernel

/-- R166: with no input left, a complete frame of instance 1 is served while instance 0 waits. -/
theorem test_other_instance_is_served :
    accepted (step (laterBusy (sentBytes 7 [0x01]) [])) = some [0x00] := by decide

/-- L2-D: padding(55, 119), padding(56, 56), and the length field at T = MAX_TOTAL. -/
theorem test_padding :
    padding 55 119 = [0x80, 0, 0, 0, 0, 0, 0, 0x03, 0xb8] ∧
      padding 56 56 = [0x80] ++ List.replicate 63 0 ++ [0, 0, 0, 0, 0, 0, 0x01, 0xc0] ∧
      (padding 63 (BitVec.ofNat 64 maxTotal)).drop 57 =
        [0xff, 0xff, 0xff, 0xff, 0xff, 0xff, 0xff, 0xf8] := by decide +kernel

/-- R27: the codes of PHASE. -/
theorem test_phase_codes :
    Phase.empty.code = 0b00 ∧ Phase.accumulating.code = 0b01 ∧ Phase.finalized.code = 0b10 := by
  decide

/-- R71: escapes, repeats, joined pieces; and assembly errors (a word above 2^32, a
missing operand, a lower-case mnemonic). -/
theorem test_assembler :
    assembleLine "UPDATE \"a\\\"\\x41;\"*2 ++ x\"0aFF\" ; note".toList =
        some (some (.update [0x61, 0x22, 0x41, 0x3b, 0x61, 0x22, 0x41, 0x3b, 0x0a, 0xff])) ∧
      assembleLine "  ; only a comment".toList = some none ∧
      assembleLine "COMPRESS IV, x\"61626380\" ++ x\"00\"*59 ++ x\"18\"".toList =
        some (some (.compress initialState abcBlock)) ∧
      assembleLine "HASH".toList = none ∧ assembleLine "init".toList = none ∧
      wordLiteral "0x100000000".toList = none := by decide +kernel

/-- The eight IV words as R71 writes a state, between the brace characters. -/
def ivText : List Char :=
  openBraceChar ::
    ("0x6a09e667, 0xbb67ae85,0x3c6ef372, 0xa54ff53a, 0x510E527F, 0x9b05688c, 0x1f83d9ab, ".toList ++
      "0x5be0cd19".toList ++ [closeBraceChar])

/-- R71: a state in braces; a state of seven words is an assembly error. -/
theorem test_assembler_state :
    assembleLine ("COMPRESS ".toList ++ ivText ++
        ", x\"61626380\" ++ x\"00\"*59 ++ x\"18\"".toList) =
        some (some (.compress initialState abcBlock)) ∧
      assembleLine ("COMPRESS ".toList ++ [openBraceChar] ++
        "0x0,0x0,0x0,0x0,0x0,0x0,0x0".toList ++ [closeBraceChar] ++ ", x\"00\"*64".toList) = none := by
  decide +kernel

/-- A data literal of 2^64 bytes is an assembly error, one byte less is none (log entry 15). -/
theorem test_assembler_longest_data :
    dataCommand .update [.bytes (List.replicate (2 ^ 64) 0x61)] = none ∧
      (dataCommand .hash [.bytes (List.replicate (2 ^ 64 - 1) 0x61)]).isSome = true := by
  constructor
  · simp only [dataCommand, dataLiteral, lenFits, List.length_replicate]; decide
  · simp only [dataCommand, dataLiteral, lenFits, List.length_replicate]; decide

/-! ### Witnesses: states and operands that meet the hypotheses of a statement -/

/-- DecodeOfEncode, with a LEN of more than one byte, and COMPRESS in a build that has it. -/
theorem test_witness_DecodeOfEncode :
    (Instr.update (List.replicate 300 0xff)).wf = true ∧
      (Instr.update (List.replicate 300 0xff)).opcode ∈ Opcode.defined false ∧
      (Instr.compress initialState abcBlock).wf = true ∧
      (Instr.compress initialState abcBlock).opcode ∈ Opcode.defined true := by decide +kernel

theorem test_witness_EncodeOfDecode :
    decodeWith false [0x04, 0, 0, 0, 0, 0, 0, 0, 1, 0x80, 0x05] = .command (.hash [0x80]) [0x05] := by
  decide

/-- Both ends of each reserved range and of the defined one; the step's clause at a port that begins
with each of them. -/
theorem test_witness_ReservedOpcodesRefused :
    (∀ b ∈ ([0x00, 0x06, 0xff] : List Byte),
      (b = 0x00 ∨ 6 ≤ b.toNat) ∧ decode [b, 0x01] = .reserved b ∧
        (sent [b, 0x01]).inputs = [] ∧ (sent [b, 0x01]).self.rspPending = [] ∧
        (sent [b, 0x01]).self.cmdPort = [⟨7, b⟩, ⟨7, 0x01⟩]) ∧
      (∀ b ∈ ([0x01, 0x02, 0x03, 0x04, 0x05] : List Byte), decode [b] ≠ .reserved b) ∧
      ({ sent [0x05] with hasCompress := false } : State).self.cmdPort = [⟨7, 0x05⟩] ∧
      decodeWith false [0x05] = .reserved 0x05 ∧
      (laterBusy [⟨7, 0x06⟩] [.port 1 .run]).inputs.head? = some (.port 1 .run) ∧
      ((laterBusy [⟨7, 0x06⟩] []).inputs = [] ∧ 1 = (laterBusy [⟨7, 0x06⟩] []).turn) ∧
      (laterBusy [⟨7, 0x06⟩] []).engines[1]? =
        some { Engine.afterReset 1 with cmdPort := [⟨7, 0x06⟩] } := by decide +kernel

/-- The ends of the reserved ranges at the port of `self`, and 0x05 in a build without COMPRESS. -/
theorem test_witness_ReservedOpcodeOfSelfRefused :
    (∀ b ∈ ([0x00, 0x06, 0xff] : List Byte),
      (sent [b]).inputs = [] ∧ (sent [b]).self.rspPending = [] ∧
        (sent [b]).self.cmdPort = [⟨7, b⟩] ∧ (b = 0x00 ∨ 6 ≤ b.toNat)) ∧
      (let s : State := { sent [0x05] with hasCompress := false }
       s.inputs = [] ∧ s.self.rspPending = [] ∧ s.self.cmdPort = [⟨7, 0x05⟩] ∧
         s.hasCompress = false) := by decide

/-- Seven operand bytes are too few for LEN, eight are enough; a frame whole, and one byte short. -/
theorem test_witness_FrameLengthDecoding :
    (List.replicate 7 (0 : Byte)).length < 8 ∧
      decodeLength true (0x02 :: List.replicate 7 0) = .unknown ∧
      decodeLength true (0x02 :: List.replicate 8 0) = .known 9 ∧
      9 ≤ (0x02 :: List.replicate 8 (0 : Byte)).length ∧
      decodeLength true [0x05] = .known 97 ∧ [(0x05 : Byte)].length < 97 ∧
      decodeLength true [0x06] = .reserved 0x06 ∧ decodeLength false [0xff] = .reserved 0xff ∧
      decodeLength false [0x05] = .reserved 0x05 ∧ decodeLength false [0x04] = .unknown := by
  decide +kernel

/-- Both ends of the rotation amounts and of the bit numbers. -/
theorem test_witness_RotateAndShift :
    (rotr 0x00000001 1).getLsbD 31 = true ∧ (rotr 0x80000000 31).getLsbD 0 = true ∧
      (0 < 1 ∧ 31 < 32) := by decide

theorem test_witness_ChoiceAndMajority : (0 : Nat) < 32 ∧ (31 : Nat) < 32 ∧
    (ch 0x80000000 0x80000000 0).getLsbD 31 = true ∧ (maj 1 1 0).getLsbD 0 = true := by decide

/-- The ends of the table (10_state R35): K[0] from the prime 2, K[63] from the prime 311. -/
theorem test_witness_RoundConstantsAreCubeRoots :
    (0 : Nat) < 64 ∧ (63 : Nat) < 64 ∧ roundConstants[0]? = some 0x428a2f98 ∧
      roundConstants[63]? = some 0xc67178f2 ∧
      29099129074 ^ 3 ≤ 311 * 2 ^ 96 ∧ 311 * 2 ^ 96 < 29099129075 ^ 3 ∧
      BitVec.ofNat 32 29099129074 = 0xc67178f2 := by decide +kernel

theorem test_witness_InitialStateIsSquareRoots : (0 : Nat) < 8 ∧ (7 : Nat) < 8 ∧
    initialState.words[0]? = some 0x6a09e667 ∧ initialState.words[7]? = some 0x5be0cd19 := by
  decide

/-- The ends of the recurrence, t = 16 and t = 63, with the words of L2-W. -/
theorem test_witness_MessageScheduleRecurrence : (16 : Nat) ≤ 16 ∧ (16 : Nat) < 64 ∧
    (schedule abcBlock).getD 16 0 = 0x61626380 ∧ 16 ≤ 63 ∧ (63 : Nat) < 64 ∧
    (schedule abcBlock).getD 63 0 = 0x12b1edeb := by decide +kernel

/-- A run with a COMPRESS in the middle; the longest message of one tail block. -/
theorem test_witness_CompressCommandAnswers :
    (∃ t, execAll ([.init] ++ .compress initialState abcBlock :: [.update [0x61], .finalize])
      State.reset = .next t) ∧
      ([] : List Byte).length ≤ 55 ∧ (List.replicate 55 (0x61 : Byte)).length ≤ 55 :=
  ⟨⟨_, rfl⟩, by decide, by decide⟩

/-- In Finalized; past the ceiling by one byte; at the ceiling; with no data at the ceiling. -/
theorem test_witness_UpdateAppendsMessage :
    (inPhase .finalized 0 3).self.phase = .finalized ∧
      (inPhase .accumulating 63 (BitVec.ofNat 64 maxTotal)).self.phase ≠ .finalized ∧
      maxTotal <
        (inPhase .accumulating 63 (BitVec.ofNat 64 maxTotal)).self.total.toNat + [(0 : Byte)].length ∧
      (inPhase .accumulating 63 (BitVec.ofNat 64 maxTotal)).self.total.toNat +
        ([] : List Byte).length ≤ maxTotal ∧
      (inPhase .accumulating 62 (BitVec.ofNat 64 (maxTotal - 1))).self.total.toNat +
        [(0 : Byte)].length ≤ maxTotal := by decide +kernel

theorem test_witness_InvalidStateChangesNothing :
    (inPhase .finalized 0 3).self.phase = .finalized ∧
      ∃ t, exec .finalize (inPhase .finalized 0 3) = .next t ∧
        t.self.rspPending = (inPhase .finalized 0 3).self.rspPending ++ [0x01] :=
  ⟨rfl, _, rfl, rfl⟩

/-- Empty parts among them; ending exactly at the ceiling. -/
theorem test_witness_UpdatesAreIncremental :
    ([[0x61], [], [0x62, 0x63]] : List (List Byte)) ≠ [] ∧
      (inPhase .accumulating 60 (BitVec.ofNat 64 (maxTotal - 3))).self.phase ≠ .finalized ∧
      (inPhase .accumulating 60 (BitVec.ofNat 64 (maxTotal - 3))).self.total.toNat +
        ([[0x61], [], [0x62, 0x63]] : List (List Byte)).flatten.length ≤ maxTotal := by
  decide +kernel

theorem test_witness_PaddingForm :
    (BitVec.ofNat 64 maxTotal).toNat ≤ maxTotal ∧ (0 : BitVec 64).toNat ≤ maxTotal := by
  decide +kernel

theorem test_witness_FinalizeReturnsDigest :
    (inPhase .finalized 0 3).self.phase = .finalized ∧ State.reset.self.phase ≠ .finalized ∧
      (inPhase .accumulating 55 55).self.phase ≠ .finalized ∧
      (inPhase .accumulating 56 56).self.phase ≠ .finalized := by decide

theorem test_witness_HashReturnsDigest :
    ([] : List Byte).length ≤ maxTotal ∧
      (List.replicate (2 ^ 61 - 1) (0 : Byte)).length ≤ maxTotal := by
  simp only [List.length_replicate]; decide

theorem test_witness_HashIsInitUpdateFinalize :
    maxTotal < (List.replicate (2 ^ 61) (0 : Byte)).length ∧
      (List.replicate (2 ^ 61 - 1) (0 : Byte)).length ≤ maxTotal := by
  simp only [List.length_replicate]; decide

theorem test_witness_FreshInstanceStreamsDigest :
    State.reset.self.h = initialState ∧ State.reset.self.cnt = 0 ∧ State.reset.self.total = 0 ∧
      State.reset.self.phase = .empty ∧
      ([[0x61], [], [0x62, 0x63]] : List (List Byte)).flatten.length ≤ maxTotal := by decide

/-- A port with INIT, two UPDATEs, FINALIZE, and the start of another transmission's frame. -/
theorem test_witness_StreamedDigestAtThePorts :
    ∃ s : State, s.inputs = [] ∧ s.self.rspPending = [] ∧ s.self.hostReady = true ∧
      ([[0x61, 0x62], [0x63]] : List (List Byte)).flatten.length ≤ maxTotal ∧
      s.self.cmdPort =
        sentBytes 7 (commandStream
            ([.init] ++ ([[0x61, 0x62], [0x63]] : List (List Byte)).map .update ++ [.finalize])) ++
          [⟨8, 0x02⟩] :=
  ⟨one { engine .finalized 0 3 with
      cmdPort :=
        sentBytes 7 (commandStream
            ([.init] ++ ([[0x61, 0x62], [0x63]] : List (List Byte)).map .update ++ [.finalize])) ++
          [⟨8, 0x02⟩] },
    rfl, rfl, rfl, by decide, rfl⟩

/-- Every command gives a next state somewhere; UPDATE and FINALIZE in Finalized; a reset. -/
theorem test_witness_PhaseTransitions :
    (∃ t, exec .init (inPhase .accumulating 3 3) = .next t) ∧
      (∃ t, exec (.update [0x61]) (inPhase .accumulating 3 3) = .next t) ∧
      (∃ t, exec .finalize (inPhase .accumulating 3 3) = .next t) ∧
      (∃ t, exec (.hash [0x61]) (inPhase .accumulating 3 3) = .next t) ∧
      (∃ t, exec (.compress initialState abcBlock) (inPhase .accumulating 3 3) = .next t) ∧
      (inPhase .finalized 0 3).self.phase = .finalized ∧
      (∃ t, exec .finalize (inPhase .finalized 0 3) = .next t) ∧
      (two [.port 1 .reset]).inputs = [.port 1 .reset] ∧
      (two [.port 1 .reset]).engines[1]? = some (Engine.afterReset 1) :=
  ⟨⟨_, rfl⟩, ⟨_, rfl⟩, ⟨_, rfl⟩, ⟨_, rfl⟩, ⟨_, rfl⟩, rfl, ⟨_, rfl⟩, rfl, rfl⟩

theorem test_witness_OneResponsePerCommand :
    (∃ t, exec (.update []) (inPhase .finalized 0 3) = .next t) ∧
      ∃ t, exec .finalize (inPhase .accumulating 3 3) = .next t :=
  ⟨⟨_, rfl⟩, ⟨_, rfl⟩⟩

/-- A next state, and each way the last clause's premise holds. -/
theorem test_witness_CommandFrame :
    (∃ t, exec (.update [0x61]) (inPhase .finalized 0 3) = .next t) ∧
      (inPhase .finalized 0 3).self.phase = .finalized ∧
      (∃ data, Instr.update [0x61] = .update data) ∧
      (∃ t, exec (.compress initialState abcBlock) (inPhase .accumulating 3 3) = .next t) ∧
      ∃ state block, Instr.compress initialState abcBlock = .compress state block :=
  ⟨⟨_, rfl⟩, rfl, ⟨_, rfl⟩, ⟨_, rfl⟩, ⟨_, _, rfl⟩⟩

/-- H changes by a reset, by power-on, and by a command on a turn. -/
theorem test_witness_WritersOfH :
    ∀ ev ∈ [Event.powerOn, .port 0 .reset, .port 0 .run],
      let s : State :=
        { State.reset with
          self :=
            { engine .finalized 0 3 with h := ⟨0, 0, 0, 0, 0, 0, 0, 0⟩, cmdPort := sentBytes 7 [0x01] }
          inputs := [ev] }
      ∃ t e e', step s = .next t ∧ s.engines[0]? = some e ∧ t.engines[0]? = some e' ∧ e'.h ≠ e.h := by
  intro ev hev
  simp only [List.mem_cons, List.not_mem_nil, or_false] at hev
  rcases hev with rfl | rfl | rfl
  · exact ⟨_, _, _, rfl, rfl, rfl, by decide⟩
  · exact ⟨_, _, _, rfl, rfl, rfl, by decide⟩
  · exact ⟨_, _, _, rfl, rfl, rfl, by decide⟩

/-- Two instances that differ in a byte of BUF from CNT on and in their identifiers. -/
theorem test_witness_DontCareBytesAreNeverRead :
    let s := inPhase .accumulating 3 3
    let s' := one { engine .accumulating 3 3 with id := 5, buf := (Vector.replicate 64 0).set 3 9 }
    s.self.SameMessageState s'.self ∧ s.self.SamePorts s'.self ∧ s.self.buf ≠ s'.self.buf ∧
      ∃ t, exec .finalize s = .next t :=
  ⟨⟨rfl, rfl, rfl, rfl, by decide⟩, ⟨rfl, rfl, rfl, rfl⟩, by decide, _, rfl⟩

/-- A frame with another after it, run with no input left, and as a turn given by an input; and a frame of
an instance that is not `self` with no input left. -/
theorem test_witness_StepRunsDecodedCommand :
    let s := sent [0x02, 0, 0, 0, 0, 0, 0, 0, 1, 0x61, 0x03]
    (s.inputs = [] ∧ s.self.rspPending = [] ∧
      decodeWith s.hasCompress (portBytes s.self.cmdPort) = .command (.update [0x61]) [0x03] ∧
      interleaved (s.self.cmdPort.take (s.self.cmdPort.length - 1)) = false) ∧
    ∃ u : State, ({ twoBusy [] with inputs := [] } : State).focus 0 = some u ∧
      (twoBusy [.port 0 .run]).inputs = .port 0 .run :: [] ∧ u.self.rspPending = [] ∧
      decodeWith u.hasCompress (portBytes u.self.cmdPort) = .command .init [] ∧
      interleaved (u.self.cmdPort.take (u.self.cmdPort.length - 0)) = false ∧
      ∃ v : State, (laterBusy (sentBytes 7 [0x01]) []).inputs = [] ∧
        (laterBusy (sentBytes 7 [0x01]) []).focus (laterBusy (sentBytes 7 [0x01]) []).turn = some v ∧
        v.self.rspPending = [] ∧
        decodeWith v.hasCompress (portBytes v.self.cmdPort) = .command .init [] ∧
        interleaved (v.self.cmdPort.take (v.self.cmdPort.length - 0)) = false :=
  ⟨by decide +kernel, _, rfl, rfl, rfl, by decide, by decide, _, rfl, rfl, rfl, by decide, by decide⟩

/-- A frame under the ceiling; and an UPDATE of one byte at the ceiling. -/
theorem test_witness_CompleteFrameIsAnswered :
    (Instr.update [0x61]).wf = true ∧ (Instr.update [0x61]).opcode ∈ Opcode.defined true ∧
      ∀ total ∈ [0, BitVec.ofNat 64 maxTotal],
        let s := one { engine .accumulating 0 total with
          cmdPort := sentBytes 7 (encode (.update [0x61])) ++ [⟨8, 0x01⟩] }
        s.inputs = [] ∧ s.self.rspPending = [] ∧ s.self.hostReady = true ∧
          s.self.cmdPort = sentBytes 7 (encode (.update [0x61])) ++ [⟨8, 0x01⟩] ∧
          (overCeiling (.update [0x61]) s.self ↔ total ≠ 0) := by
  refine ⟨by decide, by decide, ?_⟩
  intro total h
  refine ⟨rfl, rfl, rfl, rfl, ?_⟩
  simp only [List.mem_cons, List.not_mem_nil, or_false] at h
  rcases h with rfl | rfl
  · simp only [overCeiling]; decide +kernel
  · simp only [overCeiling]; decide +kernel

/-- A response not accepted; an incomplete frame (none of it, one byte short); a whole frame; a platform
all of whose instances wait, in two ways; and a turn given to one of them. -/
theorem test_witness_InstanceWaits :
    ({ engine .empty 0 0 with rspPending := [0x00] } : Engine).rspPending ≠ [] ∧
      (∀ bs ∈ ([[], [0x02, 0, 0, 0, 0, 0, 0, 0, 1], List.replicate 96 0x05] : List (List Byte)),
        (sent bs).self.cmdPort = sentBytes 7 bs ∧ decodeWith true bs = .incomplete) ∧
      ((sent [0x01]).self.rspPending = [] ∧
        decodeWith true (portBytes (sent [0x01]).self.cmdPort) ≠ .incomplete) ∧
      (∀ rsp ∈ ([[], [0x00]] : List (List Byte)),
        let s : State := { two [] with self := { engine .empty 0 0 with rspPending := rsp } }
        s.inputs = [] ∧ (∀ e ∈ s.engines, e.waits s.hasCompress = true)) ∧
      (two [.port 1 .run]).inputs = .port 1 .run :: [] ∧
      (two [.port 1 .run]).engines[1]? = some (Engine.afterReset 1) ∧
      (Engine.afterReset 1).waits true = true := by decide +kernel

/-- A frame at an instance that is not `self`, with a begun one after it. -/
theorem test_witness_EveryFrameIsAnswered :
    (Instr.update [0x61]).wf = true ∧ (Instr.update [0x61]).opcode ∈ Opcode.defined true ∧
      (let port := sentBytes 7 (encode (.update [0x61])) ++ [⟨8, 0x02⟩]
       let e := { Engine.afterReset 1 with cmdPort := port }
       (laterBusy port []).inputs = [] ∧ (laterBusy port []).engines[1]? = some e ∧
         e.rspPending = [] ∧ e.hostReady = true ∧
         e.cmdPort = sentBytes 7 (encode (.update [0x61])) ++ [⟨8, 0x02⟩]) := by decide +kernel

/-- A frame finished by another transmission; and one begun by one and carried on by another. -/
theorem test_witness_InterleavedFrameRefused :
    let port : List PortByte :=
      [⟨1, 0x02⟩, ⟨1, 0⟩, ⟨1, 0⟩, ⟨1, 0⟩, ⟨1, 0⟩, ⟨1, 0⟩, ⟨1, 0⟩, ⟨1, 0⟩, ⟨1, 1⟩, ⟨2, 0x61⟩]
    let s := one { engine .empty 0 0 with cmdPort := port }
    let s' := one { engine .empty 0 0 with cmdPort := [⟨1, 0x02⟩, ⟨2, 0x01⟩] }
    (s.inputs = [] ∧ s.self.rspPending = [] ∧
      decodeWith s.hasCompress (portBytes s.self.cmdPort) = .command (.update [0x61]) [] ∧
      interleaved (s.self.cmdPort.take (s.self.cmdPort.length - 0)) = true) ∧
    (s'.inputs = [] ∧ s'.self.rspPending = [] ∧
      decodeWith s'.hasCompress (portBytes s'.self.cmdPort) = .incomplete ∧
      interleaved s'.self.cmdPort = true) ∧
    (laterBusy port []).turn = 1 ∧ (laterBusy port []).inputs = [] ∧
    (laterBusy port [.port 1 .run]).inputs.head? = some (.port 1 .run) ∧
    (∀ inputs ∈ [[], [Event.port 1 .run]],
      (laterBusy port inputs).engines[1]? = some { Engine.afterReset 1 with cmdPort := port }) ∧
    (laterBusy [⟨1, 0x02⟩, ⟨2, 0x01⟩] []).turn = 1 := by decide +kernel

/-- The first and the last instance of two; a partly received frame; power-on. -/
theorem test_witness_ResetEvent :
    (two [.port 0 .reset]).engines[0]? = some (Engine.afterReset 0) ∧
      (two [.port 1 .reset]).engines[1]? = some (Engine.afterReset 1) ∧
      ({ sent [0x02, 0x00] with inputs := [.port 0 .reset] } : State).engines[0]? =
        some { engine .empty 0 0 with cmdPort := sentBytes 7 [0x02, 0x00] } ∧
      fetch true (sentBytes 7 [0x02, 0x00]) = .waiting ∧
      (two [.powerOn]).inputs = .powerOn :: [] := by decide

/-- Each of the host's acts, at an instance with a response being emitted. -/
theorem test_witness_HostActsAtThePorts :
    ∀ a ∈ [PortAction.send 7 [0x01], .accept 1, .ready true, .ready false, .reset],
      let s : State :=
        { two [.port 0 a] with self := { engine .empty 0 0 with rspPending := [0x00, 0x01] } }
      s.inputs = [.port 0 a] ∧ ∃ e, s.engines[0]? = some e :=
  fun _ _ => ⟨rfl, _, rfl⟩

/-- The last index there is, and the first there is not. -/
theorem test_witness_NoSuchInstance :
    (two [.port 1 .run]).inputs = .port 1 .run :: [] ∧ ¬ (two []).engines.length ≤ 1 ∧
      (two [.port 2 .run]).inputs = .port 2 .run :: [] ∧ (two []).engines.length ≤ 2 := by decide

/-- A step by an input, with another instance beside it; a step with no input, of `self`, and of another
instance while `self` waits. -/
theorem test_witness_OtherInstancesUntouched :
    (∃ t, step (twoBusy [.port 1 .reset]) = .next t) ∧ (0 : Nat) ≠ 1 ∧
      (∃ t, step (twoBusy []) = .next t) ∧ (twoBusy []).self.waits true = false ∧
      (∃ t, step (laterBusy (sentBytes 7 [0x01]) []) = .next t) ∧
      0 ≠ (laterBusy (sentBytes 7 [0x01]) []).turn :=
  ⟨⟨_, rfl⟩, by decide, ⟨_, rfl⟩, by decide, ⟨_, rfl⟩, by decide⟩

/-- Two platforms with the same instance 1 and different instances 0; a next state, and a fault. -/
theorem test_witness_InstanceReadsOnlyItself :
    (two []).engines[1]? = (twoBusy []).engines[1]? ∧
      (two []).hasCompress = (twoBusy []).hasCompress ∧
      (two []).engines[0]? ≠ (twoBusy []).engines[0]? ∧
      (∃ t, step (two [.port 1 .reset]) = .next t) ∧
      (two []).engines[2]? = (twoBusy []).engines[2]? :=
  ⟨rfl, rfl, by decide, ⟨_, rfl⟩, rfl⟩

/-- Instance 0 runs a command and instance 1 is sent bytes: both steps go on. -/
theorem test_witness_InstancesCommute :
    (0 : Nat) ≠ 1 ∧
      ∃ t, core.run 2
        ({ twoBusy [] with inputs := [.port 0 .run, .port 1 (.send 7 [0x01])] } : State) = .next t :=
  ⟨by decide, _, rfl⟩

/-- The invariant holds at reset with a frame at the port, and that state steps. -/
theorem test_witness_StepKeepsInvariant :
    (sent [0x02, 0, 0, 0, 0, 0, 0, 0, 1, 0x61]).Inv ∧
      ∃ t, step (sent [0x02, 0, 0, 0, 0, 0, 0, 0, 1, 0x61]) = .next t := by
  refine ⟨?_, _, rfl⟩
  intro e he
  have he' : e = (sent [0x02, 0, 0, 0, 0, 0, 0, 0, 1, 0x61]).self := by
    simpa [State.engines, sent, one, State.reset, State.platform] using he
  subst he'
  exact ⟨⟨[], by decide, rfl, rfl, rfl, rfl⟩, fun _ => rfl⟩

/-- A message of three bytes held in Accumulating, and each command from there gives a next state. -/
theorem test_witness_CommandsTrackTheMessage :
    let s := one { engine .accumulating 3 3 with
      buf := (((Vector.replicate 64 0).set 0 0x61).set 1 0x62).set 2 0x63 }
    s.self.Holds [0x61, 0x62, 0x63] ∧ (∃ t, exec .init s = .next t) ∧
      (∃ t, exec (.update [0x64]) s = .next t) ∧ (∃ t, exec .finalize s = .next t) ∧
      (∃ t, exec (.hash [0x64]) s = .next t) ∧
      ∃ t, exec (.compress initialState abcBlock) s = .next t :=
  ⟨⟨by decide, rfl, rfl, rfl, by decide⟩, ⟨_, rfl⟩, ⟨_, rfl⟩, ⟨_, rfl⟩, ⟨_, rfl⟩, ⟨_, rfl⟩⟩

theorem test_witness_NoHangUnderInvariant :
    let s := sent [0x02, 0, 0, 0, 0, 0, 0, 0, 1, 0x61]
    s.Inv ∧ s.inputs = [] ∧ s.self.hostReady = true ∧
      decodeWith s.hasCompress (portBytes s.self.cmdPort) = .command (.update [0x61]) [] ∧
      interleaved (s.self.cmdPort.take (s.self.cmdPort.length - 0)) = false :=
  ⟨test_witness_StepKeepsInvariant.1, rfl, rfl, by decide, by decide⟩

end Sys2Proof.Tests
end

section
/-! PROOF. Byte order (00_scope R12, 20_memory R43): be32 and be64 as weighted sums, unbe32 and
unbe64 as the bytes of a number, and the place of each byte of a serialised state. -/

namespace Sys2Proof.Machine

/-- A byte put after a bit vector weighs least. -/
theorem toNat_append_byte {n : Nat} (x : BitVec n) (b : Byte) :
    (x ++ b).toNat = x.toNat * 2 ^ 8 + b.toNat := by
  rw [BitVec.toNat_append, ← Nat.shiftLeft_add_eq_or_of_lt b.isLt, Nat.shiftLeft_eq]

theorem be32_toNat (b0 b1 b2 b3 : Byte) :
    (be32 b0 b1 b2 b3).toNat =
      b0.toNat * 2 ^ 24 + b1.toNat * 2 ^ 16 + b2.toNat * 2 ^ 8 + b3.toNat := by
  simp only [be32, toNat_append_byte]
  omega

theorem be64_toNat (b0 b1 b2 b3 b4 b5 b6 b7 : Byte) :
    (be64 b0 b1 b2 b3 b4 b5 b6 b7).toNat =
      b0.toNat * 2 ^ 56 + b1.toNat * 2 ^ 48 + b2.toNat * 2 ^ 40 + b3.toNat * 2 ^ 32 +
        b4.toNat * 2 ^ 24 + b5.toNat * 2 ^ 16 + b6.toNat * 2 ^ 8 + b7.toNat := by
  simp only [be64, toNat_append_byte]
  omega

/-- The byte `p` bits from the bottom of a bit vector is a digit of its number. -/
theorem extractLsb'_byte {n : Nat} (x : BitVec n) (p : Nat) :
    x.extractLsb' p 8 = BitVec.ofNat 8 (x.toNat / 2 ^ p) := by
  rw [BitVec.extractLsb', Nat.shiftRight_eq_div_pow]

/-- The byte made from a number is its lowest digit in base 2 ^ 8. -/
theorem ofNat_eq_byte {n : Nat} {b : Byte} (h : n % 2 ^ 8 = b.toNat) : BitVec.ofNat 8 n = b := by
  apply BitVec.eq_of_toNat_eq
  rw [BitVec.toNat_ofNat, h]

@[simp] theorem unbe32_be32 (b0 b1 b2 b3 : Byte) :
    unbe32 (be32 b0 b1 b2 b3) = [b0, b1, b2, b3] := by
  simp only [unbe32, extractLsb'_byte, be32_toNat, List.cons.injEq, and_true]
  refine ⟨?_, ?_, ?_, ?_⟩ <;> exact ofNat_eq_byte (by omega)

@[simp] theorem unbe64_be64 (b0 b1 b2 b3 b4 b5 b6 b7 : Byte) :
    unbe64 (be64 b0 b1 b2 b3 b4 b5 b6 b7) = [b0, b1, b2, b3, b4, b5, b6, b7] := by
  simp only [unbe64, extractLsb'_byte, be64_toNat, List.cons.injEq, and_true]
  refine ⟨?_, ?_, ?_, ?_, ?_, ?_, ?_, ?_⟩ <;> exact ofNat_eq_byte (by omega)

@[simp] theorem unbe32_length (w : Word) : (unbe32 w).length = 4 := rfl

/-- Byte `k` of a word, most significant first, is the digit of weight 2 ^ (8 * (3 - k)) (R12). -/
theorem unbe32_getElem? (w : Word) (k : Fin 4) :
    (unbe32 w)[k.val]? = some (BitVec.ofNat 8 (w.toNat / 2 ^ (8 * (3 - k.val)))) := by
  fin_cases k <;> simp [unbe32, extractLsb'_byte]

/-- In a sequence of words written out big-endian, byte `k` of word `i` stands at place
4 * i + k. -/
theorem flatMap_unbe32_getElem? (ws : List Word) (i : Nat) (k : Fin 4) :
    (ws.flatMap unbe32)[4 * i + k.val]? = ws[i]?.bind fun w => (unbe32 w)[k.val]? := by
  have hk := k.isLt
  induction ws generalizing i with
  | nil => simp
  | cons w ws ih =>
    rw [List.flatMap_cons]
    cases i with
    | zero => rw [List.getElem?_append_left (by simp)]; simp
    | succ i =>
      rw [List.getElem?_append_right (by simp; omega), unbe32_length,
        show 4 * (i + 1) + k.val - 4 = 4 * i + k.val by omega, ih, List.getElem?_cons_succ]

/-- serialise writes the words out in order, each big-endian (R43). -/
theorem serialise_eq_flatMap_words (s : HState) : serialise s = s.words.flatMap unbe32 := rfl

@[simp] theorem serialise_length (s : HState) : (serialise s).length = 32 := rfl

theorem serialise_getElem? (s : HState) (i : Nat) (k : Fin 4) :
    (serialise s)[4 * i + k.val]? =
      s.words[i]?.map fun w => BitVec.ofNat 8 (w.toNat / 2 ^ (8 * (3 - k.val))) := by
  simp only [serialise_eq_flatMap_words, flatMap_unbe32_getElem?, unbe32_getElem?,
    Option.map_eq_bind, Function.comp_def]

/-- Settles O6, from the number of a sequence with a byte put after it (`toNat_append_byte`) and the
place of a word's bytes in a sequence of words (`flatMap_unbe32_getElem?`). -/
theorem byteOrderIsBigEndian : Obligations.ByteOrderIsBigEndian :=
  ⟨fun _ _ _ _ => ⟨be32_toNat .., unbe32_be32 ..⟩,
    fun _ _ _ _ _ _ _ _ => ⟨be64_toNat .., unbe64_be64 ..⟩,
    fun s i k => ⟨serialise_length s, serialise_getElem? s i.val k⟩⟩

end Sys2Proof.Machine
end

section
/-! PROOF. The state component rules (10_state): what reset leaves in every engine (R37), and the
phase table (R28) from what a command and a reset do to an engine. -/

namespace Sys2Proof.Machine

/-- The engines of a platform are numbered in order, each right after reset (R37, R151). -/
theorem State.platform_engines (n : Nat) :
    (State.platform n).engines = (List.range (n + 1)).map Engine.afterReset := by
  rw [List.range_succ_eq_map, List.map_cons, List.map_map]
  rfl

/-- Settles O42, from the list of a platform's engines (`State.platform_engines`). -/
theorem resetValues : Obligations.ResetValues := by
  intro n
  rw [State.platform_engines]
  refine ⟨by simp, ?_, ?_⟩
  · rw [List.map_map]
    exact List.map_id _
  · intro e he
    obtain ⟨k, -, rfl⟩ := List.mem_map.mp he
    exact ⟨rfl, rfl, rfl, rfl, rfl, rfl⟩

/-- The phase table (R28): the phase after a command that gives a next state, from the phase before. -/
def phaseAfter : Instr → Phase → Phase
  | .init, _ => .empty
  | .update _, .finalized => .finalized
  | .update _, _ => .accumulating
  | .finalize, _ => .finalized
  | .hash _, _ => .finalized
  | .compress _ _, p => p

theorem Engine.afterInstr_phase (i : Instr) (e : Engine) :
    (e.afterInstr i).phase = phaseAfter i e.phase := by
  cases i with
  | init => rfl
  | update d => cases hp : e.phase <;> simp [Engine.afterInstr, phaseAfter, hp]
  | finalize => by_cases hp : e.phase = .finalized <;> simp [Engine.afterInstr, phaseAfter, hp]
  | hash d => rfl
  | compress s b => rfl

theorem exec_phase {i : Instr} {s t : State} (h : exec i s = .next t) :
    t.self.phase = phaseAfter i s.self.phase := by
  obtain ⟨-, rfl⟩ := exec_next h
  exact Engine.afterInstr_phase i s.self

/-- In Finalized, UPDATE and FINALIZE raise InvalidState: they answer its one byte and leave the
engine as it is (R140). -/
theorem Engine.invalidState_of_finalized {i : Instr} {e : Engine} (hp : e.phase = .finalized)
    (hi : (∃ data, i = .update data) ∨ i = .finalize) :
    e.afterInstr i = e ∧ e.replyTo i = [0x01] := by
  obtain ⟨data, rfl⟩ | rfl := hi <;> exact ⟨if_pos hp, if_pos hp⟩

theorem exec_invalidState {i : Instr} {s t : State} (hp : s.self.phase = .finalized)
    (hi : (∃ data, i = .update data) ∨ i = .finalize) (h : exec i s = .next t) :
    t = s.onSelf (fun e => { e with rspPending := e.rspPending ++ [0x01] }) := by
  obtain ⟨-, rfl⟩ := exec_next h
  obtain ⟨hsame, hreply⟩ := Engine.invalidState_of_finalized hp hi
  simp only [State.onSelf, hsame, hreply]

/-- An input at the ports of an engine that exists acts on that engine, and leaves all of them in
their places. -/
theorem step_port {s : State} {k : Nat} {a : PortAction} {evs : List Event} {e : Engine}
    (hin : s.inputs = .port k a :: evs) (he : s.engines[k]? = some e) :
    ∃ u : State, step s = portAction a u ∧ u.self = e ∧ u.engines = s.engines ∧
      u.before.length = k ∧ u.inputs = evs ∧ u.hasCompress = s.hasCompress := by
  have hstep : step s = takeInput (.port k a) { s with inputs := evs } := by
    simp [step, stepPlatform, hin]
  cases hu : ({ s with inputs := evs } : State).focus k with
  | none =>
    have hlt : k < s.engines.length := (List.getElem?_eq_some_iff.mp he).1
    exact absurd (State.focus_none_iff.mp hu) (Nat.not_le.mpr hlt)
  | some u =>
    obtain ⟨heng, hself, hlen, hins, hc⟩ := State.focus_engines hu
    exact ⟨u, by simp [hstep, takeInput, hu], Option.some.inj (hself.symm.trans he), heng, hlen,
      hins, hc⟩

/-- A reset at the ports of an engine resets that engine and no other (R160). -/
theorem step_reset {s : State} {k : Nat} {evs : List Event} {e : Engine}
    (hin : s.inputs = .port k .reset :: evs) (he : s.engines[k]? = some e) :
    ∃ t, step s = .next t ∧ t.engines = s.engines.set k e.assertReset ∧ t.inputs = evs ∧
      t.hasCompress = s.hasCompress := by
  obtain ⟨u, hstep, rfl, heng, rfl, hins, hc⟩ := step_port hin he
  refine ⟨u.onSelf Engine.assertReset, hstep, ?_, hins, hc⟩
  rw [← heng]
  exact State.onSelf_engines u u.self.assertReset

/-- Settles O31: the table from `exec_phase`, InvalidState from `exec_invalidState`, reset from
`step_reset`. -/
theorem phaseTransitions : Obligations.PhaseTransitions := by
  refine ⟨fun i s t h => exec_phase h, ?_, ?_⟩
  · intro i s t hp hi h
    rw [exec_invalidState hp hi h]
    exact ⟨⟨rfl, rfl, rfl, rfl, rfl⟩, rfl⟩
  · intro s k evs e hin he
    obtain ⟨t, hstep, heng, -, -⟩ := step_reset hin he
    have hk : k < s.engines.length := (List.getElem?_eq_some_iff.mp he).1
    exact ⟨t, e.assertReset, hstep, by rw [heng, List.getElem?_set_self hk], rfl⟩

end Sys2Proof.Machine
end

section
/-! PROOF. The table K (10_state R35): the bitwise cube root is the integer cube root, and the table's
primes are the first 64. -/

namespace Sys2Proof.Machine

/-- The bit-by-bit search keeps the cube root in `[root, root + 2 ^ bits)`, so that it ends at the
integer cube root. -/
theorem cubeRootFrom_spec {n bits root : Nat} (hle : root ^ 3 ≤ n) (hlt : n < (root + 2 ^ bits) ^ 3) :
    cubeRootFrom n bits root ^ 3 ≤ n ∧ n < (cubeRootFrom n bits root + 1) ^ 3 := by
  induction bits generalizing root with
  | zero => exact ⟨hle, hlt⟩
  | succ bits ih =>
    have hcube : (root + 2 ^ bits) * (root + 2 ^ bits) * (root + 2 ^ bits) =
      (root + 2 ^ bits) ^ 3 := by ring
    simp only [cubeRootFrom, Nat.one_shiftLeft, hcube]
    split
    case isTrue hbit =>
      refine ih hbit ?_
      rwa [Nat.add_assoc, ← Nat.two_mul, ← Nat.pow_succ']
    case isFalse hbit => exact ih hle (Nat.lt_of_not_le hbit)

/-- 35 bits are enough for the cube root of p * 2 ^ 96 while p < 2 ^ 9. -/
theorem roundConstantOf_spec {p : Nat} (hp : p < 2 ^ 9) :
    ∃ r : Nat, r ^ 3 ≤ p * 2 ^ 96 ∧ p * 2 ^ 96 < (r + 1) ^ 3 ∧
      roundConstantOf p = BitVec.ofNat 32 r := by
  have hlt : p * 2 ^ 96 < (0 + 2 ^ 35) ^ 3 := by omega
  obtain ⟨hroot, hnext⟩ := cubeRootFrom_spec (Nat.zero_le _) hlt
  exact ⟨_, hroot, hnext, by rw [roundConstantOf, Nat.shiftLeft_eq]⟩

/-- The numbers below `n` with the property `p`, in order, are the first ones there are. -/
theorem filter_range_eq_map_nth (p : Nat → Prop) [DecidablePred p] (n : Nat) :
    (List.range n).filter (fun k => decide (p k)) =
      (List.range (Nat.count p n)).map (Nat.nth p) := by
  induction n with
  | zero => simp
  | succ n ih =>
    rw [List.range_succ, List.filter_append, ih, Nat.count_succ]
    by_cases hp : p n
    · simp [hp, List.range_succ, Nat.nth_count hp]
    · simp [hp]

@[simp] theorem firstPrimes_length : firstPrimes.length = 64 := rfl

/-- Trial division by the numbers below `b` decides primality below `b ^ 2`. -/
theorem prime_iff_of_lt_sq {b k : Nat} (hk : k < b ^ 2) :
    Nat.Prime k ↔ 2 ≤ k ∧ ∀ m < b, 2 ≤ m → m ∣ k → m = k := by
  constructor
  · intro hp
    exact ⟨hp.two_le, fun m _ hm hd => (hp.eq_one_or_self_of_dvd m hd).resolve_left (by omega)⟩
  · rintro ⟨h2, htrial⟩
    refine Nat.prime_def_le_sqrt.mpr ⟨h2, fun m hm hsqrt hd => ?_⟩
    have hmk : m = k := htrial m (hsqrt.trans_lt (Nat.sqrt_lt'.mpr hk)) hm hd
    have : Nat.sqrt k < k := Nat.sqrt_lt_self h2
    omega

/-- The table's primes are the primes below 312 (R35). Trial division below 18 is much cheaper to
evaluate than `Nat.Prime` itself. -/
theorem firstPrimes_eq_filter :
    firstPrimes = (List.range 312).filter (fun k => decide (Nat.Prime k)) := by
  have htrial : firstPrimes =
      (List.range 312).filter (fun k => decide (2 ≤ k ∧ ∀ m < 18, 2 ≤ m → m ∣ k → m = k)) := by
    decide +kernel
  refine htrial.trans (List.filter_congr fun k hk => decide_eq_decide.mpr ?_)
  exact (prime_iff_of_lt_sq ((List.mem_range.mp hk).trans (by decide))).symm

theorem firstPrimes_eq_map_nth : firstPrimes = (List.range 64).map (Nat.nth Nat.Prime) := by
  have hmap := firstPrimes_eq_filter.trans (filter_range_eq_map_nth Nat.Prime 312)
  have hcount : 64 = Nat.count Nat.Prime 312 := by simpa using congrArg List.length hmap
  rwa [← hcount] at hmap

theorem firstPrimes_lt {p : Nat} (hp : p ∈ firstPrimes) : p < 2 ^ 9 := by
  rw [firstPrimes_eq_filter] at hp
  have := List.mem_range.mp (List.mem_of_mem_filter hp)
  omega

theorem firstPrimes_getElem? {t : Nat} (ht : t < 64) :
    firstPrimes[t]? = some (Nat.nth Nat.Prime t) := by
  simp [firstPrimes_eq_map_nth, ht]

/-- Settles O11, from the correctness of the cube root (`roundConstantOf_spec`) and of the table of
primes (`firstPrimes_getElem?`). -/
theorem roundConstantsAreCubeRoots : Obligations.RoundConstantsAreCubeRoots := by
  refine ⟨by simp [roundConstants], fun t ht => ?_⟩
  have hprime := firstPrimes_getElem? ht
  obtain ⟨r, hle, hlt, hr⟩ := roundConstantOf_spec (firstPrimes_lt (List.mem_of_getElem? hprime))
  exact ⟨r, hle, hlt, by rw [roundConstants, List.getElem?_map, hprime, ← hr]; rfl⟩

end Sys2Proof.Machine
end

section
/-! PROOF. The message schedule (40_compressor R89, 20_memory R41): extending the schedule leaves the
words it has in their places, so that each word is read where it was put. -/

namespace Sys2Proof.Machine

/-- The last word put in front is computed from all the words behind it. -/
theorem extendSchedule_succ (n : Nat) (newest : List Word) :
    extendSchedule (n + 1) newest =
      nextScheduleWord (extendSchedule n newest) :: extendSchedule n newest := by
  induction n generalizing newest with
  | zero => rfl
  | succ n ih => exact ih (nextScheduleWord newest :: newest)

@[simp] theorem extendSchedule_length (n : Nat) (newest : List Word) :
    (extendSchedule n newest).length = n + newest.length := by
  induction n with
  | zero => rw [extendSchedule, Nat.zero_add]
  | succ n ih => rw [extendSchedule_succ, List.length_cons, ih, Nat.add_right_comm]

/-- Behind its newest `k` words the schedule is what it was before they were put there. -/
theorem extendSchedule_drop (k n : Nat) (newest : List Word) :
    (extendSchedule (k + n) newest).drop k = extendSchedule n newest := by
  induction k with
  | zero => rw [Nat.zero_add, List.drop_zero]
  | succ k ih => rw [Nat.add_right_comm, extendSchedule_succ, List.drop_succ_cons, ih]

@[simp] theorem schedule_length (b : Block) : (schedule b).length = 64 := by
  simp [schedule]

/-- The words W[0..n+15] stand in the schedule as they did when `n` words had been added to the
block's. -/
theorem schedule_getElem? (b : Block) {n i : Nat} (hn : n ≤ 48) (hi : i < n + 16) :
    (schedule b)[i]? =
      (extendSchedule n ((List.finRange 16).map (blockWord b)).reverse)[n + 15 - i]? := by
  obtain ⟨k, hk⟩ := Nat.exists_eq_add_of_le' hn
  rw [← extendSchedule_drop k n, ← hk, List.getElem?_drop, schedule,
    List.getElem?_reverse (by simp; omega)]
  congr 1
  simp
  omega

theorem schedule_getElem?_block (b : Block) (i : Fin 16) :
    (schedule b)[i.val]? = some (blockWord b i) := by
  have hi := i.isLt
  rw [schedule_getElem? b (Nat.zero_le 48) (by omega), extendSchedule,
    List.getElem?_reverse (by simp; omega)]
  simp [show 15 - (15 - i.val) = i.val by omega]

/-- W[t] was put before the words W[t-1], …, W[0] as the recurrence over them
(`extendSchedule_succ`), and all of them keep their places (R89). -/
theorem schedule_recurrence (b : Block) {t : Nat} (hlow : 16 ≤ t) (hhigh : t < 64) :
    (schedule b).getD t 0 =
      smallSigma1 ((schedule b).getD (t - 2) 0) + (schedule b).getD (t - 7) 0 +
        smallSigma0 ((schedule b).getD (t - 15) 0) + (schedule b).getD (t - 16) 0 := by
  obtain ⟨n, rfl⟩ := Nat.exists_eq_add_of_le' hlow
  have hplace (j : Nat) (hj : j ≤ 16) : (schedule b).getD (n + 16 - j) 0 =
      (extendSchedule (n + 1) ((List.finRange 16).map (blockWord b)).reverse).getD j 0 := by
    rw [List.getD_eq_getElem?_getD, schedule_getElem? b (n := n + 1) (by omega) (by omega),
      show n + 1 + 15 - (n + 16 - j) = j by omega, List.getD_eq_getElem?_getD]
  rw [hplace 2 (by decide), hplace 7 (by decide), hplace 15 (by decide), hplace 16 (by decide)]
  refine (hplace 0 (by decide)).trans ?_
  rw [extendSchedule_succ]
  rfl

/-- Settles O13, from the words of the block (`schedule_getElem?_block`) and the recurrence
(`schedule_recurrence`); the schedules of the two concrete blocks are evaluated. -/
theorem messageScheduleRecurrence : Obligations.MessageScheduleRecurrence :=
  ⟨fun b => ⟨schedule_length b, schedule_getElem?_block b, fun _ => schedule_recurrence b⟩,
    by decide +kernel, by decide +kernel⟩

end Sys2Proof.Machine
end

section
/-! PROOF. Reserved opcodes (30_encoding R65): which bytes they are in each build, that the decoder
finds one from frame byte 0 alone, and that no turn passes one. -/

namespace Sys2Proof.Machine

/-- The bytes that spell no command (R65). -/
theorem ofByte_eq_none_iff {hasCompress : Bool} {b : Byte} :
    Opcode.ofByte hasCompress b = none ↔
      (b = 0x00 ∨ 6 ≤ b.toNat ∨ (b = 0x05 ∧ hasCompress = false)) := by
  rw [Opcode.ofByte, List.find?_eq_none]
  cases hasCompress with
  | false =>
    simp only [Opcode.defined, Opcode.byte, Bool.false_eq_true, if_false, List.mem_cons,
      List.not_mem_nil, or_false, forall_eq_or_imp, forall_eq, beq_iff_eq, and_true]
    bv_omega
  | true =>
    simp only [Opcode.defined, Opcode.byte, Bool.true_eq_false, if_true, List.mem_cons,
      List.not_mem_nil, or_false, forall_eq_or_imp, forall_eq, beq_iff_eq, and_false]
    bv_omega

theorem decodeData_ne_reserved (make : List Byte → Instr) (bs : List Byte) (opc : Byte) :
    decodeData make bs ≠ .reserved opc := by
  unfold decodeData
  split <;> nofun

theorem decodeState_ne_reserved (bs : List Byte) (opc : Byte) : decodeState bs ≠ .reserved opc := by
  unfold decodeState
  split
  · split <;> nofun
  · nofun

/-- A reserved opcode is told from frame byte 0 alone, and from nothing that follows it (R65, R143). -/
theorem decodeWith_reserved_iff {hasCompress : Bool} {opc : Byte} {bs : List Byte} :
    decodeWith hasCompress (opc :: bs) = .reserved opc ↔ Opcode.ofByte hasCompress opc = none := by
  cases ho : Opcode.ofByte hasCompress opc with
  | none => simp [decodeWith, ho]
  | some o =>
    cases o <;> simp [decodeWith, ho, decodeData_ne_reserved, decodeState_ne_reserved]

theorem fetch_reserved {hasCompress : Bool} {p : PortByte} {ps : List PortByte}
    (h : Opcode.ofByte hasCompress p.byte = none) : fetch hasCompress (p :: ps) = .reserved := by
  have hdecode : decodeWith hasCompress (portBytes (p :: ps)) = .reserved p.byte :=
    decodeWith_reserved_iff.mpr h
  simp [fetch, hdecode]

theorem runCommand_reserved {s : State} (hidle : s.self.rspPending = [])
    (hf : fetch s.hasCompress s.self.cmdPort = .reserved) :
    runCommand s = .refused .reservedOpcode := by
  simp [runCommand, hidle, hf]

/-- Settles O4: the reserved bytes are those that spell no command (`ofByte_eq_none_iff`); the decoder
finds them from byte 0 (`decodeWith_reserved_iff`), so that the engine's command is refused
(`runCommand_reserved`), and with it its turn (`TurnOf.step_refused`). -/
theorem reservedOpcodesRefused : Obligations.ReservedOpcodesRefused := by
  refine ⟨fun _ _ _ => decodeWith_reserved_iff.trans ofByte_eq_none_iff, ?_⟩
  intro s k e p ps hturn he hidle hport hres
  obtain ⟨u, rfl, hbuild, hstep⟩ := hturn.step_refused he
  have hf : fetch u.hasCompress u.self.cmdPort = .reserved := by
    rw [hport, hbuild]
    exact fetch_reserved (ofByte_eq_none_iff.mpr hres)
  exact hstep _ (runCommand_reserved hidle hf)

end Sys2Proof.Machine
end

section
/-! PROOF. The response of a command (30_encoding R67, R68): its frame has the command's format, and
its STATUS says InvalidState exactly where the command raises it (60_exceptions R140). -/

namespace Sys2Proof.Machine

/-- Each command answers one frame of its format (R67). -/
theorem Engine.replyTo_format (i : Instr) (e : Engine) : ResponseFormat i (e.replyTo i) := by
  cases i with
  | init => rfl
  | update d =>
    by_cases hp : e.phase = .finalized
    · exact .inr (if_pos hp)
    · exact .inl (if_neg hp)
  | finalize =>
    by_cases hp : e.phase = .finalized
    · exact .inl (if_pos hp)
    · exact .inr ⟨_, serialise_length _, if_neg hp⟩
  | hash d => exact ⟨_, serialise_length _, rfl⟩
  | compress s b => exact ⟨_, serialise_length _, rfl⟩

/-- STATUS is 0x01 exactly where InvalidState is raised: for UPDATE and FINALIZE in Finalized (R140). -/
theorem Engine.replyTo_invalidState_iff {i : Instr} {e : Engine} :
    (e.replyTo i).head? = some 0x01 ↔
      (e.phase = .finalized ∧ ((∃ data, i = .update data) ∨ i = .finalize)) := by
  constructor
  · cases i with
    | update d => by_cases hp : e.phase = .finalized <;> simp [Engine.replyTo, hp]
    | finalize => by_cases hp : e.phase = .finalized <;> simp [Engine.replyTo, hp]
    | init | hash d | compress s b => simp [Engine.replyTo]
  · rintro ⟨hp, hi⟩
    rw [(Engine.invalidState_of_finalized hp hi).2]
    rfl

/-- Settles O32: the frame is the command's reply, whose format and STATUS are known
(`Engine.replyTo_format`, `Engine.replyTo_invalidState_iff`). -/
theorem oneResponsePerCommand : Obligations.OneResponsePerCommand := by
  intro i s t h
  obtain ⟨-, rfl⟩ := exec_next h
  exact ⟨s.self.replyTo i, rfl, Engine.replyTo_format i s.self, Engine.replyTo_invalidState_iff⟩

end Sys2Proof.Machine
end

section
/-! PROOF. The word primitives (40_compressor R83 to R88): Ch and Maj bit by bit, and the four sigma
functions. -/

namespace Sys2Proof.Machine

/-- The word of ones of the corner cases, as the library's. -/
theorem ones_eq_allOnes : (0xFFFFFFFF : Word) = BitVec.allOnes 32 := rfl

/-- Ch chooses, bit by bit, by `x` between `y` and `z` (R83). -/
theorem ch_getLsbD (x y z : Word) {i : Nat} (hi : i < 32) :
    (ch x y z).getLsbD i = if x.getLsbD i then y.getLsbD i else z.getLsbD i := by
  simp only [ch, BitVec.getLsbD_xor, BitVec.getLsbD_and, BitVec.getLsbD_not, hi, decide_true,
    Bool.true_and]
  cases x.getLsbD i <;> simp

/-- Maj takes, bit by bit, the value that at least two of the three have (R84). -/
theorem maj_getLsbD (x y z : Word) (i : Nat) :
    (maj x y z).getLsbD i = Bool.atLeastTwo (x.getLsbD i) (y.getLsbD i) (z.getLsbD i) := by
  simp only [maj, BitVec.getLsbD_xor, BitVec.getLsbD_and]
  generalize x.getLsbD i = a, y.getLsbD i = b, z.getLsbD i = c
  decide +revert

theorem atLeastTwo_iff (a b c : Bool) :
    Bool.atLeastTwo a b c = true ↔ 2 ≤ a.toNat + b.toNat + c.toNat := by
  decide +revert

theorem ch_ones (y z : Word) : ch 0xFFFFFFFF y z = y := by
  refine BitVec.eq_of_getLsbD_eq fun i hi => ?_
  rw [ch_getLsbD _ _ _ hi, ones_eq_allOnes, BitVec.getLsbD_allOnes, if_pos (decide_eq_true hi)]

theorem ch_zero (y z : Word) : ch 0 y z = z := by
  refine BitVec.eq_of_getLsbD_eq fun i hi => ?_
  rw [ch_getLsbD _ _ _ hi, if_neg (by simp)]

theorem ch_same (x y : Word) : ch x y y = y := by
  refine BitVec.eq_of_getLsbD_eq fun i hi => ?_
  rw [ch_getLsbD _ _ _ hi, ite_self]

theorem maj_same (x z : Word) : maj x x z = x := by
  refine BitVec.eq_of_getLsbD_eq fun i _ => ?_
  cases hx : x.getLsbD i <;> simp [maj_getLsbD, hx]

theorem maj_ones_zero (z : Word) : maj 0xFFFFFFFF 0 z = z := by
  refine BitVec.eq_of_getLsbD_eq fun i hi => ?_
  rw [maj_getLsbD, ones_eq_allOnes, BitVec.getLsbD_allOnes, decide_eq_true hi]
  simp

/-- Settles O9, bit by bit (`ch_getLsbD`, `maj_getLsbD`), with the corner cases from the bits. -/
theorem choiceAndMajority : Obligations.ChoiceAndMajority :=
  ⟨fun _ _ _ => ⟨rfl, rfl⟩, fun x y z _ hi => ch_getLsbD x y z hi,
    fun x y z i _ => by rw [maj_getLsbD, atLeastTwo_iff],
    fun x y z => ⟨ch_ones y z, ch_zero y z, ch_same x y, maj_same x z, maj_ones_zero z⟩,
    by decide, by decide⟩

/-- Settles O10: the formulas are the definitions, and the concrete words are evaluated. -/
theorem sigmaFunctions : Obligations.SigmaFunctions :=
  ⟨fun _ => ⟨rfl, rfl, rfl, rfl⟩, by decide, by decide, by decide, by decide⟩

end Sys2Proof.Machine
end

section
/-! PROOF. The compression function (40_compressor R90 to R93): the rounds over the pairs K[t], W[t]
are the rounds by their index t. -/

namespace Sys2Proof.Machine

@[simp] theorem roundConstants_length : roundConstants.length = 64 := by
  rw [roundConstants, List.length_map, firstPrimes_length]

/-- Two lists of words of one length, paired, are the pairs of their words by index. -/
theorem zip_eq_map_range_getD {n : Nat} {ks ws : List Word} (hk : ks.length = n)
    (hw : ws.length = n) :
    ks.zip ws = (List.range n).map fun t => (ks.getD t 0, ws.getD t 0) := by
  refine List.ext_getElem (by simp [hk, hw]) fun t ht _ => ?_
  obtain ⟨htk, htw⟩ : t < ks.length ∧ t < ws.length := by simpa using ht
  simp [htk, htw]

/-- Round t takes K[t] and W[t], for t = 0, …, 63 in increasing order (R91, R93). -/
theorem runRounds_eq_foldl_range {ws : List Word} (hw : ws.length = 64) (v : Work) :
    runRounds ws v =
      (List.range 64).foldl
        (fun v t => roundStep (roundConstants.getD t 0) (ws.getD t 0) v) v := by
  rw [runRounds, zip_eq_map_range_getD roundConstants_length hw, List.foldl_map]

/-- The worked value of R93 on the padded block of "abc". -/
theorem compress_abc :
    compress initialState
        ((((((Vector.replicate 64 0).set 0 0x61).set 1 0x62).set 2 0x63).set 3 0x80).set 63 0x18) =
      ⟨0xba7816bf, 0x8f01cfea, 0x414140de, 0x5dae2223, 0xb00361a3, 0x96177a9c, 0xb410ff61,
        0xf20015ad⟩ := by
  decide +kernel

/-- Settles O14: load, round and final addition are their definitions, the rounds go by index
(`runRounds_eq_foldl_range`), and the worked values are evaluated. -/
theorem compressionFunction : Obligations.CompressionFunction := by
  refine ⟨fun _ _ _ => rfl, by decide, fun s b => ?_, by decide +kernel, compress_abc⟩
  rw [compress, runRounds_eq_foldl_range (schedule_length b)]
  rfl

end Sys2Proof.Machine
end

section
/-! PROOF. The COMPRESS command (40_compressor R95). It only adds to the response bytes being emitted,
and no command reads those: other commands do the same with it and without it. -/

namespace Sys2Proof.Machine

/-- The engine with `r` as the response bytes being emitted. -/
def Engine.emitting (r : List Byte) (e : Engine) : Engine := { e with rspPending := r }

/-- The platform with `r` as the response bytes its engine to move is emitting. -/
def State.emitting (r : List Byte) (s : State) : State := s.onSelf (Engine.emitting r)

@[simp] theorem Engine.emitting_h (r : List Byte) (e : Engine) : (e.emitting r).h = e.h := rfl
@[simp] theorem Engine.emitting_phase (r : List Byte) (e : Engine) :
    (e.emitting r).phase = e.phase := rfl
@[simp] theorem Engine.emitting_rspPending (r : List Byte) (e : Engine) :
    (e.emitting r).rspPending = r := rfl
@[simp] theorem State.emitting_rspPending (r : List Byte) (s : State) :
    (s.emitting r).self.rspPending = r := rfl
@[simp] theorem State.emitting_emitting (r q : List Byte) (s : State) :
    (s.emitting r).emitting q = s.emitting q := rfl
theorem State.emitting_own (s : State) : s.emitting s.self.rspPending = s := rfl
theorem State.emitting_sameMessageState (r : List Byte) (s : State) :
    (s.emitting r).self.SameMessageState s.self := ⟨rfl, rfl, rfl, rfl, rfl⟩

theorem Engine.absorb_emitting (r : List Byte) (e : Engine) (x : Byte) :
    (e.emitting r).absorb x = (e.absorb x).emitting r := by
  by_cases hfull : e.cnt.val + 1 = 64
  · simp [Engine.absorb, Engine.emitting, hfull]
  · simp [Engine.absorb, Engine.emitting, hfull]

theorem Engine.absorbAll_emitting (r : List Byte) (e : Engine) (bs : List Byte) :
    (e.emitting r).absorbAll bs = (e.absorbAll bs).emitting r := by
  induction bs generalizing e with
  | nil => rfl
  | cons x bs ih => rw [Engine.absorbAll_cons, Engine.absorb_emitting, ih, Engine.absorbAll_cons]

theorem Engine.append_emitting (r : List Byte) (e : Engine) (d : List Byte) :
    (e.emitting r).append d = (e.append d).emitting r :=
  congrArg (fun f : Engine => { f with phase := .accumulating })
    (Engine.absorbAll_emitting r { e with total := e.total + BitVec.ofNat 64 d.length } d)

theorem Engine.finish_emitting (r : List Byte) (e : Engine) :
    (e.emitting r).finish = e.finish.emitting r :=
  congrArg (fun f : Engine => { f with phase := .finalized })
    (Engine.absorbAll_emitting r e (padding e.cnt e.total))

theorem Engine.hashMessage_emitting (r : List Byte) (e : Engine) (d : List Byte) :
    (e.emitting r).hashMessage d = (e.hashMessage d).emitting r := by
  have hstart : (e.emitting r).startMessage = e.startMessage.emitting r := rfl
  rw [Engine.hashMessage, hstart, Engine.append_emitting, Engine.finish_emitting]
  rfl

/-- What a command makes of its engine does not depend on the response bytes being emitted. -/
theorem Engine.afterInstr_emitting (i : Instr) (r : List Byte) (e : Engine) :
    (e.emitting r).afterInstr i = (e.afterInstr i).emitting r := by
  cases i with
  | init => rfl
  | update d =>
    by_cases hp : e.phase = .finalized <;>
      simp [Engine.afterInstr, hp, Engine.append_emitting]
  | finalize =>
    by_cases hp : e.phase = .finalized <;>
      simp [Engine.afterInstr, hp, Engine.finish_emitting]
  | hash d => exact Engine.hashMessage_emitting r e d
  | compress st b => rfl

/-- What a command answers does not depend on the response bytes being emitted. -/
theorem Engine.replyTo_emitting (i : Instr) (r : List Byte) (e : Engine) :
    (e.emitting r).replyTo i = e.replyTo i := by
  cases i with
  | init => rfl
  | update d => rfl
  | finalize => simp [Engine.replyTo, Engine.finish_emitting]
  | hash d => simp [Engine.replyTo, Engine.hashMessage_emitting]
  | compress st b => rfl

theorem overCeiling_emitting (i : Instr) (r : List Byte) (e : Engine) :
    overCeiling i (e.emitting r) ↔ overCeiling i e := by
  cases i <;> exact Iff.rfl

/-- A command does the same whatever response bytes are being emitted, and puts its reply after
them. -/
theorem exec_emitting {i : Instr} {s t : State} (h : exec i s = .next t) (r : List Byte) :
    exec i (s.emitting r) = .next (t.emitting (r ++ s.self.replyTo i)) := by
  obtain ⟨hc, rfl⟩ := exec_next h
  have hc' : ¬ overCeiling i (s.emitting r).self := mt (overCeiling_emitting i r s.self).mp hc
  rw [exec_completes hc']
  simp only [State.emitting, State.onSelf, Engine.afterInstr_emitting, Engine.replyTo_emitting]
  rfl

theorem exec_rspPending {i : Instr} {s t : State} (h : exec i s = .next t) :
    t.self.rspPending = s.self.rspPending ++ s.self.replyTo i := by
  obtain ⟨-, rfl⟩ := exec_next h
  rfl

/-- A run that completes runs its first command and then the others. -/
theorem execAll_cons_next {i : Instr} {is : List Instr} {s t : State} :
    execAll (i :: is) s = .next t ↔ ∃ u, exec i s = .next u ∧ execAll is u = .next t := by
  cases hi : exec i s <;> simp [execAll, hi]

/-- A run in two parts that completes runs the one and then the other. -/
theorem execAll_append_next {is js : List Instr} {s t : State} :
    execAll (is ++ js) s = .next t ↔ ∃ u, execAll is s = .next u ∧ execAll js u = .next t := by
  induction is generalizing s with
  | nil => simp [execAll]
  | cons i is ih =>
    simp only [List.cons_append, execAll_cons_next, ih]
    constructor
    · rintro ⟨v, hi, u, his, hjs⟩
      exact ⟨u, ⟨v, hi, his⟩, hjs⟩
    · rintro ⟨u, ⟨v, hi, his⟩, hjs⟩
      exact ⟨v, hi, u, his, hjs⟩

/-- A run of commands does the same whatever response bytes are being emitted, and puts its replies
after them. -/
theorem execAll_emitting {is : List Instr} {s t : State} (h : execAll is s = .next t) :
    ∃ reply, t.self.rspPending = s.self.rspPending ++ reply ∧
      ∀ r, execAll is (s.emitting r) = .next (t.emitting (r ++ reply)) := by
  induction is generalizing s with
  | nil =>
    cases h
    exact ⟨[], by simp, fun r => by simp [execAll]⟩
  | cons i is ih =>
    obtain ⟨u, hi, hrest⟩ := execAll_cons_next.mp h
    obtain ⟨reply, hpending, hreply⟩ := ih hrest
    refine ⟨s.self.replyTo i ++ reply, ?_, fun r => ?_⟩
    · rw [hpending, exec_rspPending hi, List.append_assoc]
    · refine execAll_cons_next.mpr ⟨_, exec_emitting hi r, ?_⟩
      rw [hreply, List.append_assoc]

/-- COMPRESS answers OK with the words of compress(S, BLOCK), and does nothing else (R95). -/
theorem exec_compress (state : HState) (block : Block) (s : State) :
    exec (.compress state block) s =
      .next (s.emitting (s.self.rspPending ++ 0x00 :: serialise (compress state block))) := rfl

/-- Without a COMPRESS, a run of commands leaves the same message state, and gives the same answers
but for that of COMPRESS (R95). -/
theorem execAll_without_compress {before after : List Instr} {state : HState} {block : Block}
    {s t : State} (h : execAll (before ++ .compress state block :: after) s = .next t) :
    ∃ reply1 reply2,
      execAll (before ++ after) s =
        .next (t.emitting (s.self.rspPending ++ reply1 ++ reply2)) ∧
      t.self.rspPending =
        s.self.rspPending ++ reply1 ++ 0x00 :: serialise (compress state block) ++ reply2 := by
  obtain ⟨u, hbefore, hrest⟩ := execAll_append_next.mp h
  obtain ⟨v, hcompress, hafter⟩ := execAll_cons_next.mp hrest
  rw [exec_compress, Host.Outcome.next.injEq] at hcompress
  subst hcompress
  obtain ⟨reply1, hu, -⟩ := execAll_emitting hbefore
  obtain ⟨reply2, ht, hreply⟩ := execAll_emitting hafter
  have hwithout := hreply u.self.rspPending
  rw [State.emitting_emitting, State.emitting_own, hu] at hwithout
  refine ⟨reply1, reply2, execAll_append_next.mpr ⟨u, hbefore, hwithout⟩, ?_⟩
  rw [ht, State.emitting_rspPending, hu]

/-- A message of at most 55 bytes is padded to one block (R116). -/
theorem paddedMessage_length_short {m : List Byte} (h : m.length ≤ 55) :
    (paddedMessage m).length = 64 := by
  rw [paddedMessage, List.length_append, padding_length, Fin.val_ofNat]
  omega

theorem blocksOf_one {m : List Byte} (h : m.length = 64) : blocksOf m = [blockAt m 0] := by
  rw [blocksOf, h]
  rfl

/-- The digest words of a message of at most 55 bytes are one call of compress. -/
theorem digestState_short {m : List Byte} (h : m.length ≤ 55) :
    digestState m = compress initialState (blockAt (paddedMessage m) 0) := by
  rw [digestState, blocksOf_one (paddedMessage_length_short h)]
  rfl

/-- Settles O17: the answer is `exec_compress`; a COMPRESS among other commands is
taken out by `execAll_without_compress`; the one-block digest is `digestState_short`. -/
theorem compressCommandAnswers : Obligations.CompressCommandAnswers := by
  refine ⟨fun _ _ _ => ⟨rfl, exec_compress ..⟩, ?_, ?_, ?_⟩
  · intro before after state block s t h
    obtain ⟨reply1, reply2, hrun, hreply⟩ := execAll_without_compress h
    exact ⟨_, reply1, reply2, hrun, State.emitting_sameMessageState _ t, rfl, hreply⟩
  · exact fun m hm => ⟨paddedMessage_length_short hm, (digestState_short hm).symm⟩
  · rw [compress_abc]
    decide

end Sys2Proof.Machine
end

section
/-! PROOF. The streaming commands (41_streaming): the whole engine after absorbing bytes, after the
body of UPDATE and after that of FINALIZE (R111, R113, R117), the padding in numbers (R116), and HASH
as its three parts (R118). -/

namespace Sys2Proof.Machine

/-- The whole engine after absorbing bytes: all but its new BUF and the count of its free values is
known (R110, R111). -/
theorem Engine.absorbAll_eq (e : Engine) (bs : List Byte) :
    e.absorbAll bs =
      { e with
        h := compressN e.h (blocksOf (e.pending ++ bs))
        buf := (e.absorbAll bs).buf
        cnt := Fin.ofNat 64 (e.cnt.val + bs.length)
        draws := (e.absorbAll bs).draws } := by
  obtain ⟨hh, hcnt, -⟩ := e.absorbAll_spec bs
  exact (Engine.mk.injEq ..).mpr ⟨e.absorbAll_id bs, hh, rfl, Fin.ext hcnt, e.absorbAll_total bs,
    e.absorbAll_phase bs, e.absorbAll_cmdPort bs, e.absorbAll_rspPending bs,
    e.absorbAll_rspPort bs, e.absorbAll_hostReady bs, rfl⟩

/-- The whole engine after the body of UPDATE (R113). -/
theorem Engine.append_eq (e : Engine) (data : List Byte) :
    e.append data =
      { e with
        h := compressN e.h (blocksOf (e.pending ++ data))
        buf := (e.append data).buf
        cnt := Fin.ofNat 64 (e.cnt.val + data.length)
        total := BitVec.ofNat 64 (e.total.toNat + data.length)
        phase := .accumulating
        draws := (e.append data).draws } := by
  refine (congrArg (fun f : Engine => { f with phase := .accumulating })
    (Engine.absorbAll_eq { e with total := e.total + BitVec.ofNat 64 data.length } data)).trans ?_
  rw [BitVec.ofNat_add, BitVec.ofNat_toNat, BitVec.setWidth_eq]
  rfl

/-- The whole engine after the body of FINALIZE: the padding fills the block (R117). -/
theorem Engine.finish_eq (e : Engine) :
    e.finish =
      { e with
        h := compressN e.h (blocksOf (e.pending ++ padding e.cnt e.total))
        buf := e.finish.buf
        cnt := 0
        phase := .finalized
        draws := e.finish.draws } := by
  have hcnt : Fin.ofNat 64 (e.cnt.val + (padding e.cnt e.total).length) = 0 :=
    Fin.ext (padding_fills e.cnt e.total)
  refine (congrArg (fun f : Engine => { f with phase := .finalized })
    (Engine.absorbAll_eq e (padding e.cnt e.total))).trans ?_
  rw [hcnt]
  rfl

/-- BUF[0..CNT) after the body of UPDATE (R114). -/
theorem Engine.append_buf_take (e : Engine) (data : List Byte) :
    (e.append data).buf.toList.take ((e.cnt.val + data.length) % 64) =
      leftover (e.pending ++ data) := by
  obtain ⟨-, hcnt, hpending⟩ := e.append_spec data
  rw [← hcnt, ← hpending, Engine.pending]

/-- Two outcomes agree when the operations agree on the instance whose step it is. -/
theorem State.next_onSelf_congr {s : State} {f g : Engine → Engine} (h : f s.self = g s.self) :
    (.next (s.onSelf f) : Host.Outcome State Fault Refusal) = .next (s.onSelf g) := by
  rw [State.onSelf, State.onSelf, h]

/-- A command over the ceiling is refused (R142). -/
theorem exec_overCeiling {i : Instr} {s : State} (h : overCeiling i s.self) :
    exec i s = .refused .lengthCeiling := by
  obtain ⟨-, hr⟩ | ⟨hnot, -⟩ := exec_eq i s
  · exact hr
  · exact absurd h hnot

/-- UPDATE and FINALIZE in Finalized raise InvalidState, whatever the length of the data (R140,
R143). -/
theorem exec_finalized {i : Instr} {s : State} (hp : s.self.phase = .finalized)
    (hi : (∃ data, i = .update data) ∨ i = .finalize) :
    exec i s = .next (s.onSelf (fun e => { e with rspPending := e.rspPending ++ [0x01] })) := by
  have hc : ¬ overCeiling i s.self := by
    obtain ⟨data, rfl⟩ | rfl := hi
    · exact fun h => h.1 hp
    · exact id
  rw [exec_completes hc, ← exec_invalidState hp hi (exec_completes hc)]

/-- INIT in every phase (R112). -/
theorem exec_init (s : State) :
    exec .init s =
      .next (s.onSelf (fun e => e.startMessage.emitting (e.rspPending ++ [0x00]))) :=
  exec_completes id

/-- UPDATE outside Finalized and within the ceiling (R113). -/
theorem exec_update {data : List Byte} {s : State} (hp : s.self.phase ≠ .finalized)
    (hmax : s.self.total.toNat + data.length ≤ maxTotal) :
    exec (.update data) s =
      .next (s.onSelf (fun e => (e.append data).emitting (e.rspPending ++ [0x00]))) := by
  have hc : ¬ overCeiling (.update data) s.self := fun h => Nat.not_lt.mpr hmax h.2
  rw [exec_completes hc]
  refine State.next_onSelf_congr ?_
  simp [Engine.afterInstr, Engine.replyTo, Engine.emitting, hp]

/-- FINALIZE outside Finalized (R117). -/
theorem exec_finalize {s : State} (hp : s.self.phase ≠ .finalized) :
    exec .finalize s =
      .next (s.onSelf (fun e =>
        e.finish.emitting (e.rspPending ++ 0x00 :: serialise e.finish.h))) := by
  rw [exec_completes id]
  refine State.next_onSelf_congr ?_
  simp [Engine.afterInstr, Engine.replyTo, Engine.emitting, hp]

/-- Settles O18: INIT completes in every phase (`exec_init`), and its body writes exactly
these fields. -/
theorem initStartsMessage : Obligations.InitStartsMessage :=
  ⟨rfl, fun s => ⟨dontCareBuffer s.self.id s.self.draws, s.self.draws + 1, exec_init s⟩⟩

/-- Settles O20: in Finalized by `exec_finalized`, past the ceiling by `exec_overCeiling`, and
otherwise by what the body of UPDATE makes of the engine (`Engine.append_eq`,
`Engine.append_buf_take`). -/
theorem updateAppendsMessage : Obligations.UpdateAppendsMessage := by
  intro data s
  refine ⟨rfl, fun hp => exec_finalized hp (.inl ⟨data, rfl⟩),
    fun hp hmax => exec_overCeiling ⟨hp, hmax⟩, fun hp hmax => ?_⟩
  refine ⟨(s.self.append data).buf, (s.self.append data).draws, ?_, ?_,
    s.self.append_buf_take data, ?_⟩
  · rw [exec_update hp hmax]
    exact State.next_onSelf_congr (congrArg (Engine.emitting _) (s.self.append_eq data))
  · rw [blocksOf_length, List.length_append, Engine.pending_length]
  · rw [maxTotal] at hmax
    rw [BitVec.toNat_ofNat, Nat.mod_eq_of_lt (by omega)]

/-- The bit count of a message within MAX_TOTAL fits its 64 bits (R116). -/
theorem bitCount_toNat {total : BitVec 64} (h : total.toNat ≤ maxTotal) :
    (total * 8).toNat = 8 * total.toNat := by
  rw [maxTotal] at h
  bv_omega

/-- The zero bytes of the padding, in the two ranges of CNT (R116). -/
theorem zeroBytes_eq (c : Fin 64) :
    (119 - c.val) % 64 = if c.val ≤ 55 then 55 - c.val else 119 - c.val := by
  split <;> omega

/-- The padding fills the block it starts in, or the one after it (R116). -/
theorem paddedTail_length (c : Fin 64) (total : BitVec 64) :
    c.val + (padding c total).length = if c.val ≤ 55 then 64 else 128 := by
  rw [padding_length, zeroBytes_eq]
  split <;> omega

/-- Settles O24: the number of zero bytes is `zeroBytes_eq`, the bit count `bitCount_toNat`, the
length of the tail `paddedTail_length`. -/
theorem paddingForm : Obligations.PaddingForm := fun c total h =>
  ⟨(119 - c.val) % 64, Nat.mod_lt _ (by decide), by omega, zeroBytes_eq c, rfl, bitCount_toNat h,
    paddedTail_length c total⟩

/-- Settles O25: in Finalized by `exec_finalized`, and otherwise by what the body of FINALIZE makes
of the engine (`Engine.finish_eq`) and the length of the tail (`paddedTail_length`). -/
theorem finalizeReturnsDigest : Obligations.FinalizeReturnsDigest := by
  refine ⟨rfl, fun s => ⟨fun hp => exec_finalized hp (.inr rfl), fun hp => ?_⟩⟩
  refine ⟨s.self.finish.buf, s.self.finish.draws, ?_, ?_⟩
  · rw [exec_finalize hp]
    refine State.next_onSelf_congr ?_
    rw [s.self.finish_spec.1]
    exact congrArg (Engine.emitting _) s.self.finish_eq
  · rw [blocksOf_length, List.length_append, Engine.pending_length, paddedTail_length]
    split <;> rfl

/-- INIT; UPDATE; FINALIZE from any phase, within the ceiling: three responses after the ones being
emitted, and the engine that HASH leaves (R118). -/
theorem execAll_init_update_finalize {m : List Byte} {s : State} (hmax : m.length ≤ maxTotal) :
    execAll [.init, .update m, .finalize] s =
      .next (s.onSelf (fun e => (e.hashMessage m).emitting
        (e.rspPending ++ [0x00, 0x00] ++ 0x00 :: serialise (e.hashMessage m).h))) := by
  refine execAll_cons_next.mpr ⟨_, exec_init s, execAll_cons_next.mpr ⟨_, exec_update ?_ ?_,
    execAll_cons_next.mpr ⟨_, exec_finalize ?_, ?_⟩⟩⟩
  · nofun
  · simpa [State.onSelf, Engine.emitting, Engine.startMessage] using hmax
  · nofun
  · simp only [execAll, State.onSelf, Engine.append_emitting, Engine.finish_emitting,
      Engine.emitting_rspPending, Engine.emitting_h, List.append_assoc, List.cons_append,
      List.nil_append]
    rfl

/-- Settles O27: HASH past the ceiling by `exec_overCeiling`; within it HASH leaves the engine that
the three commands leave but for the responses (`execAll_init_update_finalize`). -/
theorem hashIsInitUpdateFinalize : Obligations.HashIsInitUpdateFinalize := by
  intro m s
  have hrefused : overCeiling (.hash m) s.self → exec (.hash m) s = .refused .lengthCeiling :=
    exec_overCeiling
  refine ⟨rfl, hrefused, fun hmax => ?_⟩
  have hc : ¬ overCeiling (.hash m) s.self := Nat.not_lt.mpr hmax
  exact ⟨_, _, serialise (s.self.hashMessage m).h, exec_completes hc,
    execAll_init_update_finalize hmax, serialise_length _, rfl, rfl, ⟨rfl, rfl, rfl, rfl, rfl⟩, rfl,
    rfl⟩

end Sys2Proof.Machine
end

section
/-! PROOF. The one error (60_exceptions §1): where InvalidState is raised and all that it does
(R140). -/

namespace Sys2Proof.Machine

/-- Settles O21: what InvalidState does is `exec_finalized`; conversely an appended 0x01 is the
command's reply (`exec_rspPending`), whose STATUS says where it is raised
(`Engine.replyTo_invalidState_iff`). -/
theorem invalidStateChangesNothing : Obligations.InvalidStateChangesNothing := by
  refine ⟨fun s hp => ⟨fun data => exec_finalized hp (.inl ⟨data, rfl⟩),
    exec_finalized hp (.inr rfl)⟩, fun i s t h hone => ?_⟩
  have hreply : s.self.replyTo i = [0x01] :=
    List.append_cancel_left ((exec_rspPending h).symm.trans hone)
  exact Engine.replyTo_invalidState_iff.mp (congrArg List.head? hreply)

end Sys2Proof.Machine
end

section
/-! PROOF. The reset event (70_reset_and_hazards R160): reset of one instance, and power-on of all. -/

namespace Sys2Proof.Machine

/-- Power-on resets every instance in its place (R153, R160). -/
theorem State.powerOn_engines (s : State) : s.powerOn.engines = s.engines.map Engine.assertReset := by
  simp [State.powerOn, State.engines]

theorem step_powerOn {s : State} {evs : List Event} (hin : s.inputs = .powerOn :: evs) :
    ∃ t, step s = .next t ∧ t.engines = s.engines.map Engine.assertReset ∧ t.inputs = evs ∧
      t.hasCompress = s.hasCompress := by
  refine ⟨({ s with inputs := evs } : State).powerOn, ?_, State.powerOn_engines _, rfl, rfl⟩
  simp [step, stepPlatform, takeInput, hin]

/-- Settles O41: one instance by `step_reset`, all by `step_powerOn`; what either leaves in an instance
are the fields of `Engine.assertReset`. -/
theorem resetEvent : Obligations.ResetEvent := by
  refine ⟨fun s k evs e hin he => ?_, fun s evs hin => ?_⟩
  · obtain ⟨t, hstep, heng, hins, -⟩ := step_reset hin he
    exact ⟨t, e.assertReset, hstep, heng, hins, e.assertReset_h, e.assertReset_cnt,
      e.assertReset_total, e.assertReset_phase, fun _ => e.assertReset_cmdPort,
      e.assertReset_rspPending⟩
  · obtain ⟨t, hstep, heng, hins, -⟩ := step_powerOn hin
    refine ⟨t, hstep, by rw [heng, List.length_map], hins, fun k e e' he he' => ?_⟩
    obtain rfl : e.assertReset = e' := by simpa [heng, he] using he'
    exact ⟨e.assertReset_h, e.assertReset_cnt, e.assertReset_total, e.assertReset_phase,
      fun _ => e.assertReset_cmdPort, e.assertReset_rspPending⟩

end Sys2Proof.Machine
end

section
/-! PROOF. The frames (30_encoding R61 to R66): each operand reader accepts exactly what is written
out for the value it answers, so that the decoder accepts exactly the frames; and how many bytes
each reader needs. -/

namespace Sys2Proof.Machine

@[simp] theorem be32_unbe32 (w : Word) :
    be32 (w.extractLsb' 24 8) (w.extractLsb' 16 8) (w.extractLsb' 8 8) (w.extractLsb' 0 8) = w := by
  apply BitVec.eq_of_toNat_eq
  have hw := w.isLt
  simp only [be32_toNat, extractLsb'_byte, BitVec.toNat_ofNat]
  omega

@[simp] theorem be64_unbe64 (v : BitVec 64) :
    be64 (v.extractLsb' 56 8) (v.extractLsb' 48 8) (v.extractLsb' 40 8) (v.extractLsb' 32 8)
      (v.extractLsb' 24 8) (v.extractLsb' 16 8) (v.extractLsb' 8 8) (v.extractLsb' 0 8) = v := by
  apply BitVec.eq_of_toNat_eq
  have hv := v.isLt
  simp only [be64_toNat, extractLsb'_byte, BitVec.toNat_ofNat]
  omega

@[simp] theorem unbe64_length (v : BitVec 64) : (unbe64 v).length = 8 := rfl

/-- A word is read exactly where its four bytes stand (R12). -/
theorem readWord_eq_some_iff {bs rest : List Byte} {w : Word} :
    readWord bs = some (w, rest) ↔ bs = unbe32 w ++ rest := by
  constructor
  · intro h
    unfold readWord at h
    split at h
    · cases h
      rw [unbe32_be32]
      rfl
    · cases h
  · rintro rfl
    simp [readWord, unbe32]

/-- LEN is read exactly where its eight bytes stand (R45, R62). -/
theorem readLen_eq_some_iff {bs rest : List Byte} {n : Nat} :
    readLen bs = some (n, rest) ↔ n < 2 ^ 64 ∧ bs = unbe64 (BitVec.ofNat 64 n) ++ rest := by
  constructor
  · intro h
    obtain ⟨b0, b1, b2, b3, b4, b5, b6, b7, rfl, rfl⟩ := readLen_eq_some h
    refine ⟨BitVec.isLt _, ?_⟩
    rw [BitVec.ofNat_toNat, BitVec.setWidth_eq, unbe64_be64]
    rfl
  · rintro ⟨hn, rfl⟩
    simp only [unbe64, List.cons_append, List.nil_append, readLen, be64_unbe64, BitVec.toNat_ofNat,
      Nat.mod_eq_of_lt hn]

/-- STATE is read exactly where the serialised state stands (R63). -/
theorem readState_eq_some_iff {bs rest : List Byte} {s : HState} :
    readState bs = some (s, rest) ↔ bs = serialise s ++ rest := by
  constructor
  · intro h
    simp only [readState, Option.bind_eq_bind, Option.bind_eq_some_iff, Prod.exists,
      readWord_eq_some_iff, Option.pure_def, Option.some.injEq, Prod.mk.injEq] at h
    obtain ⟨h0, _, rfl, h1, _, rfl, h2, _, rfl, h3, _, rfl, h4, _, rfl, h5, _, rfl, h6, _, rfl,
      h7, _, rfl, rfl, rfl⟩ := h
    simp only [serialise, List.append_assoc]
  · rintro rfl
    have hread (w : Word) (bs : List Byte) : readWord (unbe32 w ++ bs) = some (w, bs) :=
      readWord_eq_some_iff.mpr rfl
    simp [readState, serialise, hread]

theorem readBlock_eq_some_iff {bs rest : List Byte} {b : Block} :
    readBlock bs = some (b, rest) ↔ bs = b.toList ++ rest :=
  ⟨readBlock_eq_some, fun h => h ▸ readBlock_toList b rest⟩

/-- With LEN read, DATA is the LEN bytes after it, once they have all arrived (R62, R66). -/
theorem decodeData_of_readLen {make : List Byte → Instr} {bs tail : List Byte} {n : Nat}
    (h : readLen bs = some (n, tail)) :
    decodeData make bs =
      if n ≤ tail.length then .command (make (tail.take n)) (tail.drop n) else .incomplete := by
  by_cases hn : n ≤ tail.length <;> simp [decodeData, readData, h, hn]

theorem decodeData_of_readLen_none {make : List Byte → Instr} {bs : List Byte}
    (h : readLen bs = none) : decodeData make bs = .incomplete := by
  simp [decodeData, readData, h]

/-- The operands of format FL spell exactly a LEN and as many bytes (R61, R62). -/
theorem decodeData_eq_command_iff {make : List Byte → Instr} {bs rest : List Byte} {i : Instr} :
    decodeData make bs = .command i rest ↔
      ∃ data, i = make data ∧ data.length < 2 ^ 64 ∧
        bs = unbe64 (BitVec.ofNat 64 data.length) ++ data ++ rest := by
  constructor
  · intro h
    cases hlen : readLen bs with
    | none => simp [decodeData_of_readLen_none hlen] at h
    | some p =>
      obtain ⟨n, tail⟩ := p
      obtain ⟨hn, hbs⟩ := readLen_eq_some_iff.mp hlen
      rw [decodeData_of_readLen hlen] at h
      split at h
      case isTrue hle =>
        cases h
        have htake : (tail.take n).length = n := List.length_take_of_le hle
        exact ⟨_, rfl, by rwa [htake], by rw [htake, List.append_assoc, List.take_append_drop, hbs]⟩
      case isFalse => cases h
  · rintro ⟨data, rfl, hn, rfl⟩
    have hlen : readLen (unbe64 (BitVec.ofNat 64 data.length) ++ data ++ rest) =
        some (data.length, data ++ rest) :=
      readLen_eq_some_iff.mpr ⟨hn, List.append_assoc ..⟩
    rw [decodeData_of_readLen hlen, if_pos (by simp)]
    simp

/-- The operands of format FC spell exactly a state and a block (R61, R63). -/
theorem decodeState_eq_command_iff {bs rest : List Byte} {i : Instr} :
    decodeState bs = .command i rest ↔
      ∃ s b, i = .compress s b ∧ bs = serialise s ++ b.toList ++ rest := by
  constructor
  · intro h
    unfold decodeState at h
    split at h
    · rename_i s mid hs
      split at h
      · rename_i b tail hb
        cases h
        rw [readState_eq_some_iff] at hs
        rw [readBlock_eq_some_iff] at hb
        exact ⟨s, b, rfl, by rw [hs, hb, List.append_assoc]⟩
      · cases h
    · cases h
  · rintro ⟨s, b, rfl, rfl⟩
    have hs : readState (serialise s ++ (b.toList ++ rest)) = some (s, b.toList ++ rest) :=
      readState_eq_some_iff.mpr rfl
    simp [decodeState, hs, readBlock_toList]

/-- A byte spells an opcode exactly when it is that opcode's byte and the build has it (R64, R65).
-/
theorem ofByte_eq_some_iff {hasCompress : Bool} {b : Byte} {o : Opcode} :
    Opcode.ofByte hasCompress b = some o ↔ o ∈ Opcode.defined hasCompress ∧ b = o.byte := by
  constructor
  · intro h
    have hb := List.find?_some (p := fun o : Opcode => o.byte == b) h
    exact ⟨List.mem_of_find?_eq_some h, (beq_iff_eq.mp hb).symm⟩
  · rintro ⟨ho, rfl⟩
    revert hasCompress
    cases o <;> decide

/-- The decoder after the opcode, when the build has it: the operands in the opcode's format (R61).
-/
def decodeOperands : Opcode → List Byte → Decoded
  | .init, bs => .command .init bs
  | .update, bs => decodeData .update bs
  | .finalize, bs => .command .finalize bs
  | .hash, bs => decodeData .hash bs
  | .compress, bs => decodeState bs

theorem decodeWith_of_ofByte {hasCompress : Bool} {opc : Byte} {o : Opcode}
    (h : Opcode.ofByte hasCompress opc = some o) (bs : List Byte) :
    decodeWith hasCompress (opc :: bs) = decodeOperands o bs := by
  cases o <;> simp [decodeWith, h, decodeOperands]

/-- After an opcode the decoder answers a command exactly on the operands of one that is
well-formed. -/
theorem decodeOperands_eq_command_iff {o : Opcode} {bs rest : List Byte} {i : Instr} :
    decodeOperands o bs = .command i rest ↔
      i.opcode = o ∧ i.wf = true ∧ bs = i.operandBytes ++ rest := by
  constructor
  · intro h
    cases o with
    | init | finalize =>
      cases h
      exact ⟨rfl, rfl, rfl⟩
    | update | hash =>
      obtain ⟨data, rfl, hlen, rfl⟩ := decodeData_eq_command_iff.mp h
      exact ⟨rfl, decide_eq_true hlen, rfl⟩
    | compress =>
      obtain ⟨s, b, rfl, rfl⟩ := decodeState_eq_command_iff.mp h
      exact ⟨rfl, rfl, rfl⟩
  · rintro ⟨rfl, hwf, rfl⟩
    cases i with
    | init | finalize => rfl
    | update data | hash data =>
      exact decodeData_eq_command_iff.mpr ⟨data, rfl, of_decide_eq_true hwf, rfl⟩
    | compress s b => exact decodeState_eq_command_iff.mpr ⟨s, b, rfl, rfl⟩

/-- The decoder answers a command exactly on the frame of a well-formed command of the build, with
any bytes after it (R61 to R66). -/
theorem decodeWith_eq_command_iff {hasCompress : Bool} {bs rest : List Byte} {i : Instr} :
    decodeWith hasCompress bs = .command i rest ↔
      i.wf = true ∧ i.opcode ∈ Opcode.defined hasCompress ∧ bs = encode i ++ rest := by
  constructor
  · intro h
    cases bs with
    | nil => cases h
    | cons opc bs =>
      cases ho : Opcode.ofByte hasCompress opc with
      | none => simp [decodeWith, ho] at h
      | some o =>
        rw [decodeWith_of_ofByte ho] at h
        obtain ⟨rfl, hwf, rfl⟩ := decodeOperands_eq_command_iff.mp h
        obtain ⟨hmem, rfl⟩ := ofByte_eq_some_iff.mp ho
        exact ⟨hwf, hmem, rfl⟩
  · rintro ⟨hwf, hmem, rfl⟩
    rw [encode, List.cons_append, decodeWith_of_ofByte (ofByte_eq_some_iff.mpr ⟨hmem, rfl⟩)]
    exact decodeOperands_eq_command_iff.mpr ⟨rfl, hwf, rfl⟩

/-- Settles O2: the decoder answers a command exactly on its frame (`decodeWith_eq_command_iff`). -/
theorem decodeOfEncode : Obligations.DecodeOfEncode :=
  fun _ _ _ hwf hmem => decodeWith_eq_command_iff.mpr ⟨hwf, hmem, rfl⟩

/-- Settles O3: the other direction of `decodeWith_eq_command_iff`. -/
theorem encodeOfDecode : Obligations.EncodeOfDecode := by
  intro hasCompress bs i rest h
  obtain ⟨hwf, hmem, hbs⟩ := decodeWith_eq_command_iff.mp h
  exact ⟨hbs, hwf, hmem⟩

/-- Settles O1: each frame is decoded by evaluation. -/
theorem specFramesDecode : Obligations.SpecFramesDecode := by
  unfold Obligations.SpecFramesDecode
  decide +kernel

/-- Settles O7: the three texts are assembled by evaluation. -/
theorem programTextAssembles : Obligations.ProgramTextAssembles := by
  unfold Obligations.ProgramTextAssembles
  decide +kernel

end Sys2Proof.Machine
end

section
/-! PROOF. Frame length decoding (30_encoding R66): after each opcode the decoder needs exactly as
many bytes as decode_length says, and takes exactly those. -/

namespace Sys2Proof.Machine

/-- There is a word to read wherever four bytes are left. -/
theorem exists_readWord {bs : List Byte} (k : Nat) (h : k + 4 ≤ bs.length) :
    ∃ w, readWord (bs.drop k) = some (w, bs.drop (k + 4)) := by
  obtain ⟨b0, b1, b2, b3, hfour⟩ := List.length_eq_four.mp
    (show ((bs.drop k).take 4).length = 4 by simp; omega)
  refine ⟨be32 b0 b1 b2 b3, readWord_eq_some_iff.mpr ?_⟩
  rw [unbe32_be32, ← hfour, ← List.drop_drop, List.take_append_drop]

/-- Reading STATE needs 32 bytes and takes exactly them. -/
theorem exists_readState {bs : List Byte} (h : 32 ≤ bs.length) :
    ∃ s, readState bs = some (s, bs.drop 32) := by
  obtain ⟨w0, h0⟩ := exists_readWord (bs := bs) 0 (by omega)
  obtain ⟨w1, h1⟩ := exists_readWord (bs := bs) 4 (by omega)
  obtain ⟨w2, h2⟩ := exists_readWord (bs := bs) 8 (by omega)
  obtain ⟨w3, h3⟩ := exists_readWord (bs := bs) 12 (by omega)
  obtain ⟨w4, h4⟩ := exists_readWord (bs := bs) 16 (by omega)
  obtain ⟨w5, h5⟩ := exists_readWord (bs := bs) 20 (by omega)
  obtain ⟨w6, h6⟩ := exists_readWord (bs := bs) 24 (by omega)
  obtain ⟨w7, h7⟩ := exists_readWord (bs := bs) 28 (by omega)
  rw [List.drop_zero] at h0
  exact ⟨⟨w0, w1, w2, w3, w4, w5, w6, w7⟩, by simp [readState, h0, h1, h2, h3, h4, h5, h6, h7]⟩

theorem exists_readBlock {bs : List Byte} (h : 64 ≤ bs.length) :
    ∃ b, readBlock bs = some (b, bs.drop 64) := ⟨_, dif_pos h⟩

/-- After opcode `o` the decoder needs `n` bytes of `bs`, and takes exactly those. -/
def TakesOperands (o : Opcode) (bs : List Byte) (n : Nat) : Prop :=
  (n ≤ bs.length → ∃ i, decodeOperands o bs = .command i (bs.drop n)) ∧
    (bs.length < n → decodeOperands o bs = .incomplete)

/-- Format F0 has no operands (R61). -/
theorem takesOperands_f0 {o : Opcode} (ho : o.format = .f0) (bs : List Byte) :
    TakesOperands o bs 0 := by
  refine ⟨fun _ => ?_, fun h => absurd h (Nat.not_lt_zero _)⟩
  cases o with
  | init => exact ⟨.init, rfl⟩
  | finalize => exact ⟨.finalize, rfl⟩
  | update | hash | compress => cases ho

theorem decodeOperands_fl {o : Opcode} (ho : o.format = .fl) :
    ∃ make, ∀ bs, decodeOperands o bs = decodeData make bs := by
  cases o with
  | update => exact ⟨.update, fun _ => rfl⟩
  | hash => exact ⟨.hash, fun _ => rfl⟩
  | init | finalize | compress => cases ho

/-- Format FL has the eight bytes of LEN and LEN bytes of DATA (R61, R62). -/
theorem takesOperands_fl {o : Opcode} (ho : o.format = .fl) {bs tail : List Byte} {len : Nat}
    (hlen : readLen bs = some (len, tail)) : TakesOperands o bs (8 + len) := by
  obtain ⟨make, hmake⟩ := decodeOperands_fl ho
  obtain ⟨-, hbs⟩ := readLen_eq_some_iff.mp hlen
  have htail : bs.length = 8 + tail.length := by rw [hbs, List.length_append, unbe64_length]
  have hdrop : bs.drop (8 + len) = tail.drop len := by
    rw [hbs, ← List.drop_drop, List.drop_left' (unbe64_length _)]
  rw [TakesOperands, hmake, decodeData_of_readLen hlen, hdrop]
  exact ⟨fun h => ⟨_, if_pos (by omega)⟩, fun h => if_neg (by omega)⟩

/-- Format FC has 32 bytes of STATE and 64 of BLOCK (R61, R63). -/
theorem takesOperands_fc {o : Opcode} (ho : o.format = .fc) (bs : List Byte) :
    TakesOperands o bs 96 := by
  obtain rfl : o = .compress := by
    cases o with
    | compress => rfl
    | init | update | finalize | hash => cases ho
  refine ⟨fun h => ?_, fun h => ?_⟩
  · obtain ⟨s, hs⟩ := exists_readState (show 32 ≤ bs.length by omega)
    have hblock : 64 ≤ (bs.drop 32).length := by rw [List.length_drop]; omega
    obtain ⟨b, hb⟩ := exists_readBlock hblock
    exact ⟨.compress s b, by simp [decodeOperands, decodeState, hs, hb]⟩
  · cases hd : decodeOperands .compress bs with
    | command i rest =>
      obtain ⟨s, b, -, rfl⟩ := decodeState_eq_command_iff.mp hd
      simp at h
      omega
    | incomplete => rfl
    | reserved opc => exact absurd hd (decodeState_ne_reserved bs opc)

theorem decodeLength_of_ofByte {hasCompress : Bool} {opc : Byte} {o : Opcode}
    (h : Opcode.ofByte hasCompress opc = some o) (bs : List Byte) :
    decodeLength hasCompress (opc :: bs) =
      match o.format with
      | .f0 => .known 1
      | .fl => ((readLen bs).map fun p => FrameLength.known (9 + p.1)).getD .unknown
      | .fc => .known 97 := by
  cases o with
  | init | finalize | compress => simp [decodeLength, h, Opcode.format]
  | update | hash => cases hlen : readLen bs <;> simp [decodeLength, h, Opcode.format, hlen]

/-- Where the length is known, it is that of the opcode and the operands the decoder takes. -/
theorem takesOperands_of_known {hasCompress : Bool} {opc : Byte} {o : Opcode} {bs : List Byte}
    {n : Nat} (ho : Opcode.ofByte hasCompress opc = some o)
    (h : decodeLength hasCompress (opc :: bs) = .known n) :
    ∃ m, n = m + 1 ∧ TakesOperands o bs m := by
  rw [decodeLength_of_ofByte ho] at h
  cases hformat : o.format with
  | f0 =>
    simp only [hformat, FrameLength.known.injEq] at h
    exact ⟨0, h.symm, takesOperands_f0 hformat bs⟩
  | fl =>
    cases hlen : readLen bs with
    | none => simp [hformat, hlen] at h
    | some p =>
      simp only [hformat, hlen, Option.map_some, Option.getD_some, FrameLength.known.injEq] at h
      exact ⟨8 + p.1, by omega, takesOperands_fl hformat hlen⟩
  | fc =>
    simp only [hformat, FrameLength.known.injEq] at h
    exact ⟨96, h.symm, takesOperands_fc hformat bs⟩

/-- A frame is complete exactly when as many bytes have arrived as decode_length says (R66). -/
theorem decodeWith_of_known {hasCompress : Bool} {bs : List Byte} {n : Nat}
    (h : decodeLength hasCompress bs = .known n) :
    (n ≤ bs.length → ∃ i, decodeWith hasCompress bs = .command i (bs.drop n)) ∧
      (bs.length < n → decodeWith hasCompress bs = .incomplete) := by
  cases bs with
  | nil => cases h
  | cons opc bs =>
    cases ho : Opcode.ofByte hasCompress opc with
    | none => simp [decodeLength, ho] at h
    | some o =>
      obtain ⟨m, rfl, hwhole, hpart⟩ := takesOperands_of_known ho h
      rw [decodeWith_of_ofByte ho]
      exact ⟨fun hle => hwhole (Nat.le_of_succ_le_succ hle),
        fun hlt => hpart (Nat.lt_of_succ_lt_succ hlt)⟩

/-- The length is unknown only before LEN has arrived, and then the frame is not complete (R66). -/
theorem decodeWith_of_unknown {hasCompress : Bool} {bs : List Byte}
    (h : decodeLength hasCompress bs = .unknown) : decodeWith hasCompress bs = .incomplete := by
  cases bs with
  | nil => rfl
  | cons opc bs =>
    cases ho : Opcode.ofByte hasCompress opc with
    | none => simp [decodeLength, ho] at h
    | some o =>
      rw [decodeLength_of_ofByte ho] at h
      rw [decodeWith_of_ofByte ho]
      cases hformat : o.format with
      | f0 | fc => simp [hformat] at h
      | fl =>
        cases hlen : readLen bs with
        | some p => simp [hformat, hlen] at h
        | none =>
          obtain ⟨make, hmake⟩ := decodeOperands_fl hformat
          rw [hmake, decodeData_of_readLen_none hlen]

/-- No length is defined exactly for a reserved opcode (R65, R66). -/
theorem decodeLength_reserved_iff {hasCompress : Bool} {b opc : Byte} {bs : List Byte} :
    decodeLength hasCompress (b :: bs) = .reserved opc ↔
      b = opc ∧ Opcode.ofByte hasCompress b = none := by
  cases ho : Opcode.ofByte hasCompress b with
  | none => simp [decodeLength, ho]
  | some o =>
    rw [decodeLength_of_ofByte ho]
    cases o.format with
    | f0 | fc => simp
    | fl => cases readLen bs <;> simp

theorem decodeWith_of_reserved {hasCompress : Bool} {bs : List Byte} {opc : Byte}
    (h : decodeLength hasCompress bs = .reserved opc) :
    decodeWith hasCompress bs = .reserved opc := by
  cases bs with
  | nil => cases h
  | cons b bs =>
    obtain ⟨rfl, ho⟩ := decodeLength_reserved_iff.mp h
    exact decodeWith_reserved_iff.mpr ho

/-- Settles O5: the lengths format by format (`decodeLength_of_ofByte`,
`decodeLength_reserved_iff`), and what the decoder does where the length is known, unknown or
undefined (`decodeWith_of_known`, `decodeWith_of_unknown`, `decodeWith_of_reserved`). -/
theorem frameLengthDecoding : Obligations.FrameLengthDecoding := by
  intro hasCompress
  have hupdate : Opcode.ofByte hasCompress 0x02 = some .update := by decide +revert
  have hhash : Opcode.ofByte hasCompress 0x04 = some .hash := by decide +revert
  refine ⟨fun bs => ?_, fun b0 b1 b2 b3 b4 b5 b6 b7 bs => ?_, fun bs hbs => ?_, rfl,
    fun opc bs hopc => ?_, fun bs n h => decodeWith_of_known h, fun bs h => decodeWith_of_unknown h,
    fun bs opc h => decodeWith_of_reserved h⟩
  · cases hasCompress <;> exact ⟨rfl, rfl, rfl⟩
  · rw [decodeLength_of_ofByte hupdate, decodeLength_of_ofByte hhash]
    exact ⟨rfl, rfl⟩
  · rw [decodeLength_of_ofByte hupdate, decodeLength_of_ofByte hhash, readLen_eq_none.mpr hbs]
    exact ⟨rfl, rfl⟩
  · exact decodeLength_reserved_iff.mpr ⟨rfl, ofByte_eq_none_iff.mpr (hopc.imp_right .inl)⟩

end Sys2Proof.Machine
end

section
/-! PROOF. Rotation and shift (40_compressor §1, K3, K4) bit by bit, the order of a round's
assignments (§3), the worked values of the compression function, and IV as square roots (10_state
§4, K1). -/

namespace Sys2Proof.Machine

/-- Bits that a rotation moves down come from the right shift, the others round from the left one.
-/
theorem rotr_getLsbD (x : Word) {n i : Nat} (h0 : 0 < n) (hn : n < 32) (hi : i < 32) :
    (rotr x n).getLsbD i = x.getLsbD ((i + n) % 32) := by
  simp only [rotr, BitVec.getLsbD_or, BitVec.getLsbD_ushiftRight, BitVec.getLsbD_shiftLeft, hi,
    decide_true, Bool.true_and]
  by_cases hdown : i + n < 32
  · rw [Nat.mod_eq_of_lt hdown, decide_eq_true (show i < 32 - n by omega), Nat.add_comm]
    simp
  · rw [x.getLsbD_of_ge (n + i) (by omega), decide_eq_false (show ¬ i < 32 - n by omega),
      show (i + n) % 32 = i - (32 - n) by omega]
    simp

theorem shr_toNat (x : Word) (n : Nat) : (shr x n).toNat = x.toNat / 2 ^ n := by
  rw [shr, BitVec.toNat_ushiftRight, Nat.shiftRight_eq_div_pow]

/-- Settles O8: `rotr_getLsbD` and `shr_toNat`, with the worked words evaluated. -/
theorem rotateAndShift : Obligations.RotateAndShift :=
  ⟨fun x _ _ h0 hn hi => rotr_getLsbD x h0 hn hi, shr_toNat, by decide, by decide⟩

/-- Settles O15: each assignment reads only variables that the ones before it have left alone. -/
theorem roundAssignmentOrder : Obligations.RoundAssignmentOrder := fun _ _ _ => rfl

/-- Settles O16: each value is evaluated. -/
theorem compressWorkedValues : Obligations.CompressWorkedValues := by
  refine ⟨?_, ?_, ?_, ?_, ?_⟩ <;> decide +kernel

/-- IV holds the square roots of the first eight primes of the table (K1). -/
theorem initialState_words :
    initialState.words =
      (firstPrimes.take 8).map fun p => BitVec.ofNat 32 (Nat.sqrt (p * 2 ^ 64)) := by
  decide +kernel

/-- Settles O12: IV is a table of square roots (`initialState_words`) of primes in order
(`firstPrimes_getElem?`). -/
theorem initialStateIsSquareRoots : Obligations.InitialStateIsSquareRoots := by
  intro i hi
  refine ⟨Nat.sqrt (Nat.nth Nat.Prime i * 2 ^ 64), Nat.sqrt_le' _, Nat.lt_succ_sqrt' _, ?_⟩
  rw [initialState_words, List.getElem?_map, List.getElem?_take_of_lt hi,
    firstPrimes_getElem? (by omega)]
  rfl

end Sys2Proof.Machine
end

section
/-! PROOF. The closed form of the digest (41_streaming R115, R119): what an engine has absorbed
fixes its H, CNT and BUF[0..CNT), and after the padding its H is the digest words. -/

namespace Sys2Proof.Machine

/-- An engine whose buffer is empty has absorbed nothing since H was what it is. -/
theorem Engine.absorbed_nil {e : Engine} (h : e.cnt = 0) : e.Absorbed e.h [] := by
  have hpending : e.pending = [] := List.eq_nil_of_length_eq_zero (by rw [e.pending_length, h]; rfl)
  have habs := e.absorbed_pending
  rwa [hpending] at habs

/-- What an engine has absorbed, with TOTAL and PHASE, is its whole message state. -/
theorem Engine.Absorbed.sameMessageState {e f : Engine} {h0 : HState} {m : List Byte}
    (he : e.Absorbed h0 m) (hf : f.Absorbed h0 m) (htotal : e.total = f.total)
    (hphase : e.phase = f.phase) : e.SameMessageState f := by
  obtain ⟨heh, hecnt, hep⟩ := he
  obtain ⟨hfh, hfcnt, hfp⟩ := hf
  exact ⟨heh.trans hfh.symm, Fin.ext (hecnt.trans hfcnt.symm), htotal, hphase, hep.trans hfp.symm⟩

/-- The body of INIT leaves nothing absorbed (R112). -/
theorem Engine.startMessage_absorbed (e : Engine) : e.startMessage.Absorbed initialState [] :=
  Engine.absorbed_nil (e := e.startMessage) rfl

/-- The body of UPDATE carries the absorbed bytes on by its data (R113). -/
theorem Engine.Absorbed.append {e : Engine} {h0 : HState} {m : List Byte} (h : e.Absorbed h0 m)
    (d : List Byte) : (e.append d).Absorbed h0 (m ++ d) :=
  Engine.absorbAll_absorbed (e := { e with total := e.total + BitVec.ofNat 64 d.length }) d h

/-- The body of FINALIZE carries the absorbed bytes on by the padding (R117). -/
theorem Engine.Absorbed.finish {e : Engine} {h0 : HState} {m : List Byte} (h : e.Absorbed h0 m) :
    e.finish.Absorbed h0 (m ++ padding e.cnt e.total) :=
  Engine.absorbAll_absorbed (padding e.cnt e.total) h

/-- With the message absorbed and its length in TOTAL, the body of FINALIZE makes H the digest words
(R119). -/
theorem Engine.Absorbed.finish_h {e : Engine} {m : List Byte} (h : e.Absorbed initialState m)
    (htotal : e.total = BitVec.ofNat 64 m.length) : e.finish.h = digestState m := by
  have hcnt : e.cnt = Fin.ofNat 64 m.length := Fin.ext h.2.1
  rw [h.finish.1, hcnt, htotal, digestState, paddedMessage]

theorem Engine.append_total_toNat {e : Engine} {d : List Byte}
    (h : e.total.toNat + d.length ≤ maxTotal) :
    (e.append d).total.toNat = e.total.toNat + d.length := by
  rw [maxTotal] at h
  rw [Engine.append_total, BitVec.toNat_add, BitVec.toNat_ofNat]
  omega

theorem Engine.hashMessage_total (e : Engine) (m : List Byte) :
    (e.hashMessage m).total = BitVec.ofNat 64 m.length := by
  simp [Engine.hashMessage]

/-- After HASH, H holds the digest words of its data (R118, R119). -/
theorem Engine.hashMessage_h (e : Engine) (m : List Byte) :
    (e.hashMessage m).h = digestState m :=
  (e.startMessage_absorbed.append m).finish_h (by simp)

/-- The whole engine after HASH (R118). -/
theorem Engine.hashMessage_eq (e : Engine) (m : List Byte) :
    e.hashMessage m =
      { e with
        h := digestState m
        buf := (e.hashMessage m).buf
        cnt := 0
        total := BitVec.ofNat 64 m.length
        phase := .finalized
        draws := (e.hashMessage m).draws } := by
  obtain ⟨hid, hcmd, hpending, hport, hready⟩ := Engine.afterInstr_ports (.hash m) e
  exact (Engine.mk.injEq ..).mpr ⟨hid, e.hashMessage_h m, rfl,
    Fin.ext (Engine.finish_spec _).2, e.hashMessage_total m, rfl, hcmd, hpending, hport, hready,
    rfl⟩

/-- Settles O26, from the whole engine after HASH (`Engine.hashMessage_eq`). -/
theorem hashReturnsDigest : Obligations.HashReturnsDigest := by
  intro m s hmax
  have hc : ¬ overCeiling (.hash m) s.self := Nat.not_lt.mpr hmax
  refine ⟨(s.self.hashMessage m).buf, (s.self.hashMessage m).draws, ?_⟩
  rw [exec_completes hc]
  refine State.next_onSelf_congr ?_
  rw [Engine.replyTo, s.self.hashMessage_h m]
  exact congrArg (Engine.emitting _) (s.self.hashMessage_eq m)

/-- UPDATEs within the ceiling all answer OK, and absorb their data in order (R113, R115). -/
theorem execAll_updates {parts : List (List Byte)} {s : State} {h0 : HState} {m : List Byte}
    (hp : s.self.phase ≠ .finalized) (habs : s.self.Absorbed h0 m)
    (hmax : s.self.total.toNat + parts.flatten.length ≤ maxTotal) :
    ∃ t, execAll (parts.map .update) s = .next t ∧
      t.self.Absorbed h0 (m ++ parts.flatten) ∧
      t.self.total.toNat = s.self.total.toNat + parts.flatten.length ∧
      t.self.phase = (if parts = [] then s.self.phase else .accumulating) ∧
      t.self.rspPending = s.self.rspPending ++ List.replicate parts.length 0x00 := by
  induction parts generalizing s m with
  | nil => exact ⟨s, rfl, by simpa using habs, rfl, rfl, by simp⟩
  | cons d parts ih =>
    rw [List.flatten_cons, List.length_append] at hmax
    have hd : s.self.total.toNat + d.length ≤ maxTotal := by omega
    have htotal := Engine.append_total_toNat hd
    obtain ⟨t, hrun, htabs, httotal, htphase, htpending⟩ :=
      ih (s := s.onSelf fun e => (e.append d).emitting (e.rspPending ++ [0x00])) (m := m ++ d)
        nofun (habs.append d) (show (s.self.append d).total.toNat + _ ≤ maxTotal by omega)
    refine ⟨t, execAll_cons_next.mpr ⟨_, exec_update hp hd, hrun⟩, ?_, ?_, ?_, ?_⟩
    · rwa [List.flatten_cons, ← List.append_assoc]
    · rw [httotal, List.flatten_cons, List.length_append, ← Nat.add_assoc, ← htotal]
      rfl
    · rw [htphase, if_neg (List.cons_ne_nil d parts)]
      exact ite_self _
    · rw [htpending, List.length_cons, List.replicate_succ, List.append_cons]
      rfl

/-- Settles O23: both sides have absorbed the same bytes (`execAll_updates`), with the same TOTAL.
-/
theorem updatesAreIncremental : Obligations.UpdatesAreIncremental := by
  intro parts s hne hp hmax
  obtain ⟨t, hrun, habs, htotal, hphase, hpending⟩ :=
    execAll_updates hp s.self.absorbed_pending hmax
  refine ⟨t, _, hrun, exec_update hp hmax, ?_, hpending, rfl⟩
  refine habs.sameMessageState (s.self.absorbed_pending.append parts.flatten) ?_ ?_
  · exact BitVec.eq_of_toNat_eq (htotal.trans (Engine.append_total_toNat hmax).symm)
  · rw [hphase, if_neg hne]
    rfl

/-- Settles O28: the UPDATEs absorb the whole message (`execAll_updates`), and FINALIZE makes of
that its digest (`Engine.Absorbed.finish_h`). -/
theorem freshInstanceStreamsDigest : Obligations.FreshInstanceStreamsDigest := by
  intro parts s hh hcnt htotal hphase hmax
  have hzero : s.self.total.toNat = 0 := by rw [htotal]; rfl
  have hfresh : s.self.Absorbed initialState [] := hh ▸ Engine.absorbed_nil hcnt
  obtain ⟨t, hrun, habs, httotal, htphase, htpending⟩ :=
    execAll_updates (parts := parts) (by rw [hphase]; nofun) hfresh (by rwa [hzero, Nat.zero_add])
  have htp : t.self.phase ≠ .finalized := by
    rw [htphase, hphase]
    split <;> nofun
  have hdigest : t.self.finish.h = digestState parts.flatten := by
    refine habs.finish_h (BitVec.eq_of_toNat_eq ?_)
    rw [maxTotal] at hmax
    rw [httotal, hzero, Nat.zero_add, List.nil_append, BitVec.toNat_ofNat,
      Nat.mod_eq_of_lt (by omega)]
  refine ⟨_, execAll_append_next.mpr ⟨t, hrun, execAll_cons_next.mpr ⟨_, exec_finalize htp, rfl⟩⟩,
    ?_, hdigest, rfl⟩
  rw [digest, ← hdigest, ← htpending]
  rfl

/-- Settles O19: INIT leaves an engine that has absorbed nothing (`Engine.startMessage_absorbed`),
and so does a reset. -/
theorem initIsIdempotent : Obligations.InitIsIdempotent := by
  intro s
  refine ⟨_, _, exec_init s, exec_init _, ?_, List.append_assoc .., ⟨rfl, rfl, rfl, rfl, rfl⟩⟩
  exact (Engine.startMessage_absorbed _).sameMessageState (Engine.startMessage_absorbed _) rfl rfl

/-- What is over the ceiling (R142). -/
theorem overCeiling_iff {i : Instr} {e : Engine} :
    overCeiling i e ↔
      (∃ data, i = .update data ∧ e.phase ≠ .finalized ∧
        maxTotal < e.total.toNat + data.length) ∨
      ∃ data, i = .hash data ∧ maxTotal < data.length := by
  cases i <;> simp [overCeiling]

/-- Settles O22: a command over the ceiling is refused LengthCeiling, and every other has a next
state (`exec_eq`). -/
theorem lengthCeilingIsTheOnlyStop : Obligations.LengthCeilingIsTheOnlyStop := by
  intro i s
  simp only [← overCeiling_iff]
  rcases exec_eq i s with ⟨hc, hexec⟩ | ⟨hc, hexec⟩
  · exact ⟨by simp [hexec], fun r => by simp [hexec, hc, eq_comm]⟩
  · exact ⟨by simp [hexec], fun r => by simp [hexec, hc]⟩

end Sys2Proof.Machine
end

section
/-! PROOF. The message an engine holds (10_state R29, 41_streaming §2): how each command carries it
on, and that no command reads more of an engine than its message state (10_state R24). -/

namespace Sys2Proof.Machine

/-- Outside Finalized an engine has absorbed the message it holds (R29). -/
theorem Engine.Holds.absorbed {e : Engine} {m : List Byte} (h : e.Holds m)
    (hp : e.phase ≠ .finalized) : e.Absorbed initialState m := by
  obtain ⟨-, -, hstate⟩ := h
  cases hphase : e.phase with
  | empty =>
    simp only [hphase] at hstate
    obtain ⟨rfl, hh, hcnt⟩ := hstate
    exact hh ▸ Engine.absorbed_nil (Fin.ext hcnt)
  | accumulating => simpa only [hphase, Engine.Absorbed] using hstate
  | finalized => exact absurd hphase hp

theorem Engine.Holds.total_eq {e : Engine} {m : List Byte} (h : e.Holds m) :
    e.total = BitVec.ofNat 64 m.length := by
  obtain ⟨-, htotal, -⟩ := h
  rw [← htotal, BitVec.ofNat_toNat, BitVec.setWidth_eq]

theorem Engine.startMessage_holds (e : Engine) : e.startMessage.Holds [] :=
  ⟨Nat.zero_le _, rfl, rfl, rfl, rfl⟩

theorem Engine.Holds.append {e : Engine} {m d : List Byte} (h : e.Holds m)
    (hp : e.phase ≠ .finalized) (hmax : e.total.toNat + d.length ≤ maxTotal) :
    (e.append d).Holds (m ++ d) := by
  have habs := (h.absorbed hp).append d
  obtain ⟨-, htotal, -⟩ := h
  have hlen : e.total.toNat + d.length = (m ++ d).length := by rw [htotal, List.length_append]
  exact ⟨hlen ▸ hmax, hlen ▸ Engine.append_total_toNat hmax, habs⟩

theorem Engine.Holds.finish {e : Engine} {m : List Byte} (h : e.Holds m)
    (hp : e.phase ≠ .finalized) : e.finish.Holds m := by
  have hdigest := (h.absorbed hp).finish_h h.total_eq
  obtain ⟨hmax, htotal, -⟩ := h
  exact ⟨hmax, e.finish_total ▸ htotal, hdigest, e.finish_spec.2⟩

theorem Engine.hashMessage_holds (e : Engine) {d : List Byte} (hmax : d.length ≤ maxTotal) :
    (e.hashMessage d).Holds d :=
  (e.startMessage_holds.append nofun (by simpa using hmax)).finish nofun

/-- The message held depends on the message state alone. -/
theorem Engine.SameMessageState.holds {e f : Engine} {m : List Byte} (h : e.SameMessageState f)
    (he : e.Holds m) : f.Holds m := by
  obtain ⟨hh, hcnt, htotal, hphase, hpending⟩ := h
  simpa only [Engine.Holds, hh, hcnt, htotal, hphase, hpending] using he

/-- The message held after a command, by the phase and the message before (R112, R113, R117, R118).
-/
def messageAfter (i : Instr) (p : Phase) (m : List Byte) : List Byte :=
  match i with
  | .init => []
  | .update data => if p = .finalized then m else m ++ data
  | .finalize => m
  | .hash data => data
  | .compress _ _ => m

theorem Engine.Holds.afterInstr {e : Engine} {m : List Byte} {i : Instr} (h : e.Holds m)
    (hc : ¬ overCeiling i e) : (e.afterInstr i).Holds (messageAfter i e.phase m) := by
  cases i with
  | init => exact e.startMessage_holds
  | update d =>
    by_cases hp : e.phase = .finalized
    · simpa only [Engine.afterInstr, messageAfter, if_pos hp] using h
    · simp only [Engine.afterInstr, messageAfter, if_neg hp]
      exact h.append hp (Nat.not_lt.mp fun hlt => hc ⟨hp, hlt⟩)
  | finalize =>
    by_cases hp : e.phase = .finalized
    · simpa only [Engine.afterInstr, messageAfter, if_pos hp] using h
    · simpa only [Engine.afterInstr, messageAfter, if_neg hp] using h.finish hp
  | hash d => exact e.hashMessage_holds (Nat.not_lt.mp hc)
  | compress s b => exact h

/-- Settles O50: the message goes on as `messageAfter` says (`Engine.Holds.afterInstr`), and
FINALIZE answers its digest (`Engine.Absorbed.finish_h`). -/
theorem commandsTrackTheMessage : Obligations.CommandsTrackTheMessage := by
  intro i s t m hm h
  obtain ⟨hc, rfl⟩ := exec_next h
  have hafter := hm.afterInstr hc
  cases i with
  | init | hash d | compress st b => exact hafter
  | update d =>
    dsimp only
    split <;> rename_i hp
    · rwa [messageAfter, if_pos hp] at hafter
    · rwa [messageAfter, if_neg hp] at hafter
  | finalize =>
    refine ⟨hafter, fun hp => ?_⟩
    have hdigest := (hm.absorbed hp).finish_h hm.total_eq
    simp [Engine.replyTo, hp, hdigest, digest]

/-- The body of UPDATE reads only the message state. -/
theorem Engine.SameMessageState.append {e f : Engine} (h : e.SameMessageState f) (d : List Byte) :
    (e.append d).SameMessageState (f.append d) := by
  obtain ⟨hh, hcnt, htotal, hphase, hpending⟩ := h
  have he := e.absorbed_pending.append d
  rw [hh, hpending] at he
  exact he.sameMessageState (f.absorbed_pending.append d) (by simp [htotal]) rfl

/-- The body of FINALIZE reads only the message state. -/
theorem Engine.SameMessageState.finish {e f : Engine} (h : e.SameMessageState f) :
    e.finish.SameMessageState f.finish := by
  obtain ⟨hh, hcnt, htotal, hphase, hpending⟩ := h
  have he := e.absorbed_pending.finish
  rw [hh, hpending, hcnt, htotal] at he
  exact he.sameMessageState f.absorbed_pending.finish (by simp [htotal]) rfl

/-- HASH reads nothing of the engine (R118). -/
theorem Engine.hashMessage_sameMessageState (e f : Engine) (d : List Byte) :
    (e.hashMessage d).SameMessageState (f.hashMessage d) :=
  ((e.startMessage_absorbed.sameMessageState f.startMessage_absorbed rfl rfl).append d).finish

/-- What a command makes of an engine depends on the message state alone. -/
theorem Engine.SameMessageState.afterInstr {e f : Engine} (h : e.SameMessageState f) (i : Instr) :
    (e.afterInstr i).SameMessageState (f.afterInstr i) := by
  have ⟨_, _, _, hphase, _⟩ := h
  cases i with
  | init => exact e.startMessage_absorbed.sameMessageState f.startMessage_absorbed rfl rfl
  | update d =>
    by_cases hp : f.phase = .finalized
    · simpa [Engine.afterInstr, hphase, hp] using h
    · simpa [Engine.afterInstr, hphase, hp] using h.append d
  | finalize =>
    by_cases hp : f.phase = .finalized
    · simpa [Engine.afterInstr, hphase, hp] using h
    · simpa [Engine.afterInstr, hphase, hp] using h.finish
  | hash d => exact e.hashMessage_sameMessageState f d
  | compress s b => exact h

/-- What a command answers depends on the message state alone. -/
theorem Engine.SameMessageState.replyTo {e f : Engine} (h : e.SameMessageState f) (i : Instr) :
    e.replyTo i = f.replyTo i := by
  have ⟨_, _, _, hphase, _⟩ := h
  cases i with
  | init | compress s b => rfl
  | update d => simp only [Engine.replyTo, hphase]
  | finalize =>
    obtain ⟨hh, -⟩ := h.finish
    simp only [Engine.replyTo, hphase, hh]
  | hash d =>
    obtain ⟨hh, -⟩ := e.hashMessage_sameMessageState f d
    simp only [Engine.replyTo, hh]

/-- Whether a command is over the ceiling depends on the message state alone. -/
theorem Engine.SameMessageState.overCeiling_iff {e f : Engine} (h : e.SameMessageState f)
    (i : Instr) : overCeiling i e ↔ overCeiling i f := by
  obtain ⟨-, -, htotal, hphase, -⟩ := h
  cases i <;> simp only [overCeiling, htotal, hphase]

/-- Settles O35: all three things a command does depend on the message state alone
(`Engine.SameMessageState.afterInstr`, `.replyTo`, `.overCeiling_iff`). -/
theorem dontCareBytesAreNeverRead : Obligations.DontCareBytesAreNeverRead := by
  intro i s s' hstate hports
  have hceil := hstate.overCeiling_iff i
  rcases exec_eq i s with ⟨hc, hexec⟩ | ⟨hc, hexec⟩
  · rw [hexec, exec_overCeiling (hceil.mp hc)]
    exact ⟨fun _ => Iff.rfl, nofun⟩
  · rw [hexec, exec_completes (mt hceil.mpr hc)]
    refine ⟨by simp, ?_⟩
    rintro _ ⟨⟩
    refine ⟨_, rfl, hstate.afterInstr i, ?_⟩
    obtain ⟨-, hcmd, -, hport, hready⟩ := s.self.afterInstr_ports i
    obtain ⟨-, hcmd', -, hport', hready'⟩ := s'.self.afterInstr_ports i
    obtain ⟨hsame1, hsame2, hsame3, hsame4⟩ := hports
    exact ⟨by simp [hcmd, hcmd', hsame1], by simp [hsame2, hstate.replyTo i],
      by simp [hport, hport', hsame3], by simp [hready, hready', hsame4]⟩

/-- Settles O33: the ports by `Engine.afterInstr_ports`; InvalidState and COMPRESS leave the engine
as it is but for the response (`Engine.invalidState_of_finalized`). -/
theorem commandFrame : Obligations.CommandFrame := by
  intro i s t h
  obtain ⟨-, rfl⟩ := exec_next h
  obtain ⟨hid, hcmd, -, hport, hready⟩ := s.self.afterInstr_ports i
  refine ⟨rfl, rfl, rfl, rfl, hid, hcmd, hport, hready, fun hi => ?_⟩
  have hsame : s.self.afterInstr i = s.self := by
    obtain ⟨hp, hi⟩ | ⟨state, block, rfl⟩ := hi
    · exact (Engine.invalidState_of_finalized hp hi).1
    · rfl
  simp [hsame]

end Sys2Proof.Machine
end

section
/-! PROOF. The command of an engine that has its turn (20_memory R48, 30_encoding R66): what the
fetch finds says what the turn does, and a command that is taken leaves the engine `answered`. -/

namespace Sys2Proof.Machine

/-- A whole frame of one transmission is fetched with exactly its bytes (R66, R163). -/
theorem fetch_command {hasCompress : Bool} {port : List PortByte} {i : Instr} {rest : List Byte}
    (hd : decodeWith hasCompress (portBytes port) = .command i rest)
    (hi : interleaved (port.take (port.length - rest.length)) = false) :
    fetch hasCompress port = .command i (port.drop (port.length - rest.length)) := by
  simp [fetch, hd, hi]

/-- The frame of a well-formed command of the build, sent as one transmission, is fetched whole. -/
theorem fetch_encode {hasCompress : Bool} {i : Instr} (hwf : i.wf = true)
    (hmem : i.opcode ∈ Opcode.defined hasCompress) (tx : Nat) (more : List PortByte) :
    fetch hasCompress (sentBytes tx (encode i) ++ more) = .command i more :=
  fetch_sent (decodeWith_eq_command_iff.mpr ⟨hwf, hmem, rfl⟩)

/-- A command that is fetched has at least its opcode taken from the port. -/
theorem length_lt_of_fetch {hasCompress : Bool} {port rest : List PortByte} {i : Instr}
    (h : fetch hasCompress port = .command i rest) : rest.length < port.length := by
  rcases fetch_cases hasCompress port with ⟨j, tail, hd, -, hf⟩ | ⟨_, _, -, -, hf⟩ | ⟨-, -, hf⟩ |
    ⟨-, -, hf⟩ | ⟨_, -, hf⟩ <;> rw [hf] at h <;> cases h
  obtain ⟨-, -, hport⟩ := decodeWith_eq_command_iff.mp hd
  have hlen := congrArg List.length hport
  simp only [portBytes_length, encode, List.cons_append, List.length_cons,
    List.length_append] at hlen
  rw [List.length_drop]
  omega

/-- The engine with `rest` at its command port. -/
def Engine.withPort (rest : List PortByte) (e : Engine) : Engine := { e with cmdPort := rest }

theorem Engine.withPort_sameMessageState (rest : List PortByte) (e : Engine) :
    e.SameMessageState (e.withPort rest) := ⟨rfl, rfl, rfl, rfl, rfl⟩

@[simp] theorem Engine.withPort_rspPort (rest : List PortByte) (e : Engine) :
    (e.withPort rest).rspPort = e.rspPort := rfl

/-- The engine after it has taken command `i`, with `rest` left at its port, has run it, and has
handed its response to the host. -/
def Engine.answered (i : Instr) (rest : List PortByte) (e : Engine) : Engine :=
  (((e.withPort rest).afterInstr i).emitting (e.rspPending ++ e.replyTo i)).deliver

@[simp] theorem Engine.answered_cmdPort (i : Instr) (rest : List PortByte) (e : Engine) :
    (e.answered i rest).cmdPort = rest := by
  obtain ⟨-, hcmd, -⟩ := (e.withPort rest).afterInstr_ports i
  rw [Engine.answered, Engine.deliver_cmdPort]
  exact hcmd

@[simp] theorem Engine.answered_hostReady (i : Instr) (rest : List PortByte) (e : Engine) :
    (e.answered i rest).hostReady = e.hostReady := by
  obtain ⟨-, -, -, -, hready⟩ := (e.withPort rest).afterInstr_ports i
  rw [Engine.answered, Engine.deliver_hostReady]
  exact hready

/-- A host that accepts takes the whole response (R166). -/
theorem Engine.answered_response {i : Instr} {rest : List PortByte} {e : Engine}
    (hidle : e.rspPending = []) (hready : e.hostReady = true) :
    (e.answered i rest).rspPort = e.rspPort ++ e.replyTo i ∧
      (e.answered i rest).rspPending = [] := by
  obtain ⟨-, -, -, hport, hready'⟩ := (e.withPort rest).afterInstr_ports i
  have hdeliver := Engine.deliver_ready
    (((e.withPort rest).afterInstr i).emitting (e.rspPending ++ e.replyTo i)) (hready'.trans hready)
  rw [Engine.answered, hdeliver]
  simp [Engine.emitting, hport, hidle]

/-- The message state after the command is the command's. -/
theorem Engine.answered_sameMessageState (i : Instr) (rest : List PortByte) (e : Engine) :
    (e.afterInstr i).SameMessageState (e.answered i rest) := by
  obtain ⟨hh, hcnt, htotal, hphase, hpending⟩ := (e.withPort_sameMessageState rest).afterInstr i
  refine ⟨?_, ?_, ?_, ?_, hpending.trans ?_⟩ <;>
    simp [Engine.answered, Engine.emitting, Engine.pending, hh, hcnt, htotal, hphase]

/-- With a whole frame to take and the response before accepted, the engine runs that command
(R48). -/
theorem runCommand_command {s : State} {i : Instr} {rest : List PortByte}
    (hidle : s.self.rspPending = [])
    (hf : fetch s.hasCompress s.self.cmdPort = .command i rest) :
    runCommand s = afterCommand (exec i (s.onSelf (Engine.withPort rest))) := by
  simp only [runCommand, hidle, hf, ne_eq, not_true_eq_false, if_false]
  rfl

/-- The command it takes is refused past the ceiling, and otherwise leaves it `answered`. -/
theorem runCommand_command_eq {s : State} {i : Instr} {rest : List PortByte}
    (hidle : s.self.rspPending = [])
    (hf : fetch s.hasCompress s.self.cmdPort = .command i rest) :
    (overCeiling i s.self ∧ runCommand s = .refused .lengthCeiling) ∨
      (¬ overCeiling i s.self ∧ runCommand s = .next (s.onSelf (Engine.answered i rest))) := by
  have hsame := s.self.withPort_sameMessageState rest
  have hceil := hsame.overCeiling_iff i
  rw [runCommand_command hidle hf]
  by_cases hc : overCeiling i s.self
  · have hexec := exec_overCeiling (s := s.onSelf (Engine.withPort rest)) (hceil.mp hc)
    exact .inl ⟨hc, by rw [hexec]; rfl⟩
  · have hexec := exec_completes (s := s.onSelf (Engine.withPort rest)) (mt hceil.mpr hc)
    refine .inr ⟨hc, ?_⟩
    rw [hexec, afterCommand, State.onSelf_onSelf, State.onSelf_onSelf]
    refine State.next_onSelf_congr ?_
    rw [Engine.answered, hsame.replyTo i]
    rfl

theorem runCommand_concurrent {s : State} (hidle : s.self.rspPending = [])
    (hf : fetch s.hasCompress s.self.cmdPort = .concurrent) :
    runCommand s = .refused .concurrentAccess := by
  simp [runCommand, hidle, hf]

/-- An engine waits for the host or for the rest of its frame, and its command says which (R167). -/
theorem runCommand_waits {s : State} (h : s.self.waits s.hasCompress = true) :
    runCommand s =
      .fault (if s.self.rspPending = [] then .frameIncomplete else .responseNotAccepted) := by
  by_cases hidle : s.self.rspPending = []
  · have hf := (Engine.waits_iff.mp h).resolve_left (not_not_intro hidle)
    simp [runCommand, hidle, hf]
  · simp [runCommand, hidle]

/-- An engine has a step exactly when its response before is accepted and its frame is not
incomplete. -/
theorem Engine.waits_eq_false_iff {hasCompress : Bool} {e : Engine} :
    e.waits hasCompress = false ↔ e.rspPending = [] ∧ fetch hasCompress e.cmdPort ≠ .waiting := by
  rw [Bool.eq_false_iff, ne_eq, Engine.waits_iff, not_or, not_not]

theorem Engine.has_step {hasCompress : Bool} {e : Engine} {f : Fetched} (hidle : e.rspPending = [])
    (hf : fetch hasCompress e.cmdPort = f) (hne : f ≠ .waiting) : e.waits hasCompress = false :=
  Engine.waits_eq_false_iff.mpr ⟨hidle, hf ▸ hne⟩

/-- A turn given to an engine that waits changes nothing (R51, R167). -/
theorem takeTurn_waits {s : State} (h : s.self.waits s.hasCompress = true) :
    takeTurn s = .next s := by
  simp [takeTurn, runCommand_waits h]

/-- A turn given to an engine that has a step is its next command. -/
theorem takeTurn_enabled {s : State} (h : s.self.waits s.hasCompress = false) :
    takeTurn s = runCommand s := by
  cases hrun : runCommand s with
  | next t | refused r => simp [takeTurn, hrun]
  | fault r =>
    rw [runCommand_fault_iff.mp ⟨r, hrun⟩] at h
    cases h

/-- Settles O36: what the port offers is the command (`fetch_command`), the engine that has the
turn runs it (`runCommand_command`), and a turn is that whether an input gives it or not. -/
theorem stepRunsDecodedCommand : Obligations.StepRunsDecodedCommand := by
  refine ⟨fun s i rest hin hidle hd hi => ?_, fun s u k evs i rest hin hu hidle hd hi => ?_,
    fun s u i rest hin hu hidle hd hi => ?_⟩
  · have hf := fetch_command hd hi
    rw [step_self hin (Engine.has_step hidle hf nofun), runCommand_command hidle hf]
    rfl
  · have hf := fetch_command hd hi
    have hstep : step s = takeTurn u := by
      simp [step, stepPlatform, hin, takeInput, hu, portAction]
    rw [hstep, takeTurn_enabled (Engine.has_step hidle hf nofun), runCommand_command hidle hf]
    rfl
  · have hf := fetch_command hd hi
    obtain rfl : s.giveTurn = u := by simp [State.giveTurn, hu]
    rw [step_turn hin, runCommand_command hidle hf]
    rfl

/-- Settles O37: the frame is fetched whole (`fetch_encode`), and its command is refused or leaves
the engine `answered` (`runCommand_command_eq`). -/
theorem completeFrameIsAnswered : Obligations.CompleteFrameIsAnswered := by
  intro i tx more s hwf hmem hin hidle hready hport
  have hf : fetch s.hasCompress s.self.cmdPort = .command i more := by
    rw [hport]
    exact fetch_encode hwf hmem tx more
  rw [step_self hin (Engine.has_step hidle hf nofun)]
  obtain ⟨hc, hrun⟩ | ⟨hc, hrun⟩ := runCommand_command_eq hidle hf
  · exact ⟨fun _ => hrun, absurd hc⟩
  · obtain ⟨hrsp, hpending⟩ := Engine.answered_response (i := i) (rest := more) hidle hready
    exact ⟨fun h => absurd h hc, fun _ => ⟨_, s.self.replyTo i, hrun, s.self.replyTo_format i,
      s.self.answered_cmdPort i more, hrsp, hpending⟩⟩

/-- Settles O38: what waiting is (`Engine.waits_iff`); with all waiting the turn is that of `self`
(`State.turn_stuck`) and its command faults (`runCommand_waits`); a fault means that the engine to
move waits, which it does only if all do (`State.turn_enabled`). -/
theorem instanceWaits : Obligations.InstanceWaits := by
  refine ⟨fun hasCompress e => ⟨fun h => Engine.waits_iff.mpr (.inl h), fun tx bs hport hd => ?_,
    fun hidle hd => Engine.waits_eq_false_iff.mpr ⟨hidle, ?_⟩⟩, fun s hin hall => ?_,
    fun s r hin hstep e hmem => ?_, fun s k evs e hin he hw => ?_⟩
  · refine Engine.waits_iff.mpr (.inr ?_)
    simp [hport, fetch, hd]
  · rcases fetch_cases hasCompress e.cmdPort with ⟨_, _, -, -, hf⟩ | ⟨_, _, -, -, hf⟩ |
      ⟨-, -, hf⟩ | ⟨hd', -, -⟩ | ⟨_, -, hf⟩
    case inr.inr.inr.inl => exact absurd hd' hd
    all_goals rw [hf]; nofun
  · rw [step_turn hin, State.giveTurn_self (State.turn_stuck hall)]
    exact runCommand_waits (hall _ (by simp [State.engines]))
  · rw [step_turn hin] at hstep
    have hturn := runCommand_fault_iff.mp ⟨r, hstep⟩
    obtain ⟨-, -, -, -, -, hc⟩ := s.giveTurn_spec
    rw [hc] at hturn
    by_contra hw
    rw [State.turn_enabled hmem (Bool.eq_false_iff.mpr hw)] at hturn
    cases hturn
  · obtain ⟨u, hstep, rfl, heng, -, hins, hc⟩ := step_port hin he
    exact ⟨u, hstep.trans (takeTurn_waits (hc ▸ hw)), heng, hins⟩

/-- With no input left, `self` has the turn while it has a step. -/
theorem turnOf_self {s : State} (hin : s.inputs = []) (h : s.self.waits s.hasCompress = false) :
    TurnOf s s.before.length ∧ s.engines[s.before.length]? = some s.self :=
  ⟨.inl ⟨hin, (State.turn_self h).symm⟩, by simp [State.engines]⟩

/-- Settles O52: the turn is that of `self` (`turnOf_self`), and no turn passes a reserved opcode
(`reservedOpcodesRefused`). -/
theorem reservedOpcodeOfSelfRefused : Obligations.ReservedOpcodeOfSelfRefused := by
  intro s p ps hin hidle hport hres
  have hf : fetch s.hasCompress s.self.cmdPort = .reserved := by
    rw [hport]
    exact fetch_reserved (ofByte_eq_none_iff.mpr hres)
  obtain ⟨hturn, hself⟩ := turnOf_self hin (Engine.has_step hidle hf nofun)
  exact reservedOpcodesRefused.2 s _ _ p ps hturn hself hidle hport hres

/-- Bytes are interleaved exactly when two of them are of different transmissions (R142). -/
theorem interleaved_iff {port : List PortByte} :
    interleaved port = true ↔ ∃ p ∈ port, ∃ q ∈ port, p.tx ≠ q.tx := by
  cases port with
  | nil => simp [interleaved]
  | cons p ps =>
    simp only [interleaved, List.any_eq_true, bne_iff_ne]
    constructor
    · rintro ⟨q, hq, hne⟩
      exact ⟨q, List.mem_cons_of_mem p hq, p, List.mem_cons_self, hne⟩
    · rintro ⟨q, hq, r, hr, hne⟩
      by_contra! hall
      have hsame : ∀ x ∈ p :: ps, x.tx = p.tx := by simpa using hall
      exact hne ((hsame q hq).trans (hsame r hr).symm)

theorem fetch_interleaved {hasCompress : Bool} {port : List PortByte} {i : Instr} {rest : List Byte}
    (hd : decodeWith hasCompress (portBytes port) = .command i rest)
    (hi : interleaved (port.take (port.length - rest.length)) = true) :
    fetch hasCompress port = .concurrent := by
  simp [fetch, hd, hi]

theorem fetch_interleaved_part {hasCompress : Bool} {port : List PortByte}
    (hd : decodeWith hasCompress (portBytes port) = .incomplete) (hi : interleaved port = true) :
    fetch hasCompress port = .concurrent := by
  simp [fetch, hd, hi]

/-- No turn passes a frame that the fetch finds interleaved (R142). -/
theorem TurnOf.step_concurrent {s : State} {k : Nat} {e : Engine} (hturn : TurnOf s k)
    (he : s.engines[k]? = some e) (hidle : e.rspPending = [])
    (hf : fetch s.hasCompress e.cmdPort = .concurrent) : step s = .refused .concurrentAccess := by
  obtain ⟨u, rfl, hbuild, hstep⟩ := hturn.step_refused he
  exact hstep _ (runCommand_concurrent hidle (hbuild ▸ hf))

theorem step_self_concurrent {s : State} (hin : s.inputs = []) (hidle : s.self.rspPending = [])
    (hf : fetch s.hasCompress s.self.cmdPort = .concurrent) :
    step s = .refused .concurrentAccess := by
  obtain ⟨hturn, he⟩ := turnOf_self hin (Engine.has_step hidle hf nofun)
  exact hturn.step_concurrent he hidle hf

/-- Settles O40: the fetch finds the frame interleaved, complete or not (`fetch_interleaved`,
`fetch_interleaved_part`), and no turn passes it (`TurnOf.step_concurrent`). -/
theorem interleavedFrameRefused : Obligations.InterleavedFrameRefused :=
  ⟨fun _ => interleaved_iff,
    fun _ _ _ hin hidle hd hi => step_self_concurrent hin hidle (fetch_interleaved hd hi),
    fun _ hin hidle hd hi => step_self_concurrent hin hidle (fetch_interleaved_part hd hi),
    fun _ _ _ _ _ hturn he hidle hd hi =>
      hturn.step_concurrent he hidle (fetch_interleaved hd hi),
    fun _ _ _ hturn he hidle hd hi =>
      hturn.step_concurrent he hidle (fetch_interleaved_part hd hi)⟩

end Sys2Proof.Machine
end

section
/-! PROOF. One step of the platform seen from its engines (10_state §5, 20_memory §5): at most one
of them goes through a move, and what it makes of that engine is read off that engine alone. -/

namespace Sys2Proof.Machine

/-- The step from `s` is act `a` at the ports of engine `k`: the next input is, or no input is left
and `k` has the turn. -/
def ActOf (s : State) (k : Nat) (a : PortAction) : Prop :=
  (s.inputs = [] ∧ k = s.turn ∧ a = .run) ∨ s.inputs.head? = some (.port k a)

theorem ActOf.index_unique {s : State} {j k : Nat} {a b : PortAction} (hj : ActOf s j a)
    (hk : ActOf s k b) : j = k := by
  rcases hj with ⟨hj, rfl, -⟩ | hj <;> rcases hk with ⟨hk, rfl, -⟩ | hk
  · rfl
  · simp [hj] at hk
  · simp [hk] at hj
  · rw [hj, Option.some.injEq, Event.port.injEq] at hk
    exact hk.1

/-- Every step keeps the build and takes the next input, if one is left; it resets all engines, or
one engine goes through one move and the others stay (10_state §5). -/
theorem step_engines {s t : State} (h : step s = .next t) :
    t.hasCompress = s.hasCompress ∧ t.inputs = s.inputs.tail ∧
      ((s.inputs.head? = some .powerOn ∧ t.engines = s.engines.map Engine.assertReset) ∨
        ∃ k a e e', ActOf s k a ∧ s.engines[k]? = some e ∧ EngineMove s.hasCompress e a e' ∧
          t.engines = s.engines.set k e') := by
  rcases step_cases h with ⟨hin, hmove, ht⟩ | ⟨rest, hin, rfl⟩ |
    ⟨k, a, rest, e, e', hin, he, hmove, heng, hrest, hc⟩
  · obtain ⟨-, heng, hget, hlen, hins, hc⟩ := s.giveTurn_spec
    rw [ht]
    refine ⟨hc, hins.trans (by rw [hin]; rfl), .inr ⟨s.turn, .run, s.giveTurn.self, t.self,
      .inl ⟨hin, rfl, rfl⟩, hget, hmove, ?_⟩⟩
    rw [State.onSelf_engines, heng, hlen]
  · exact ⟨rfl, by rw [hin]; rfl, .inl ⟨by rw [hin]; rfl, State.powerOn_engines _⟩⟩
  · exact ⟨hc, by rw [hrest, hin]; rfl,
      .inr ⟨k, a, e, e', .inr (by rw [hin]; rfl), he, hmove, heng⟩⟩

/-- What one step can do to one engine: leave it, reset it with all others, or take it through the
move that the step is (10_state §5). -/
theorem step_engine {s t : State} {k : Nat} {e' : Engine} (h : step s = .next t)
    (he' : t.engines[k]? = some e') :
    ∃ e, s.engines[k]? = some e ∧
      (e' = e ∨ (s.inputs.head? = some .powerOn ∧ e' = e.assertReset) ∨
        ∃ a, ActOf s k a ∧ EngineMove s.hasCompress e a e') := by
  obtain ⟨-, -, ⟨hin, heng⟩ | ⟨j, a, e, f, hact, he, hmove, heng⟩⟩ := step_engines h
  · rw [heng, List.getElem?_map, Option.map_eq_some_iff] at he'
    obtain ⟨e, he, rfl⟩ := he'
    exact ⟨e, he, .inr (.inl ⟨hin, rfl⟩)⟩
  · rw [heng] at he'
    by_cases hk : j = k
    · subst hk
      rw [List.getElem?_set_self (List.getElem?_eq_some_iff.mp he).1, Option.some.injEq] at he'
      exact ⟨e, he, .inr (.inr ⟨a, hact, he' ▸ hmove⟩)⟩
    · rw [List.getElem?_set_ne hk] at he'
      exact ⟨e', he', .inl rfl⟩

/-- An act at one engine's ports, or its turn, leaves every other engine as it was. -/
theorem step_others {s t : State} {k j : Nat} {a : PortAction} (h : step s = .next t)
    (hact : ActOf s k a) (hj : j ≠ k) : t.engines[j]? = s.engines[j]? := by
  obtain ⟨-, -, ⟨hin, -⟩ | ⟨k', a', e, e', hact', -, -, heng⟩⟩ := step_engines h
  · obtain ⟨hnil, -⟩ | hport := hact
    · simp [hnil] at hin
    · simp [hport] at hin
  · rw [heng, hact'.index_unique hact, List.getElem?_set_ne hj.symm]

theorem EngineMove.id_eq {hasCompress : Bool} {e e' : Engine} {a : PortAction}
    (h : EngineMove hasCompress e a e') : e'.id = e.id := by
  cases h with
  | command i rest _ _ _ => exact (Engine.deliver_id _).trans (Engine.afterInstr_ports i _).1
  | ready on => exact Engine.deliver_id _
  | waits | send tx bytes | accept n | reset => rfl

/-- Settles O45: a step changes one engine, or resets all (`step_engines`, `step_others`), and no
move changes the identifier. -/
theorem otherInstancesUntouched : Obligations.OtherInstancesUntouched := by
  intro s t h
  obtain ⟨hc, -, heng⟩ := step_engines h
  refine ⟨?_, hc, fun k a evs j hin hj => step_others h (.inr (by rw [hin]; rfl)) hj,
    fun hin j hj => step_others h (.inl ⟨hin, rfl, rfl⟩) hj, fun hin hw => ?_⟩
  · obtain ⟨-, heng⟩ | ⟨k, a, e, e', -, he, hmove, heng⟩ := heng
    · rw [heng, List.map_map]
      rfl
    · obtain ⟨hk, rfl⟩ := List.getElem?_eq_some_iff.mp he
      have hid : s.engines[k].id = (s.engines.map (·.id))[k]'(by simpa using hk) := by
        rw [List.getElem_map]
      rw [heng, List.map_set, hmove.id_eq, hid, List.set_getElem_self]
  · rw [step_self hin hw] at h
    obtain ⟨-, ht⟩ := runCommand_next h
    rw [ht]
    exact ⟨rfl, rfl⟩

/-- A move that changes H is a reset, or a command that writes it (10_state §1 "Writers of H"). -/
theorem EngineMove.writes_h {hasCompress : Bool} {e e' : Engine} {a : PortAction}
    (h : EngineMove hasCompress e a e') (hne : e'.h ≠ e.h) :
    a = .reset ∨ (a = .run ∧ ∃ i rest, fetch hasCompress e.cmdPort = .command i rest ∧
      (i = .init ∨ (∃ data, i = .hash data) ∨
        (e.phase ≠ .finalized ∧ ((∃ data, i = .update data) ∨ i = .finalize)))) := by
  cases h with
  | reset => exact .inl rfl
  | ready on => exact absurd (Engine.deliver_h _) hne
  | waits | send tx bytes | accept n => exact absurd rfl hne
  | command i rest hidle hf hc =>
    refine .inr ⟨rfl, i, rest, hf, ?_⟩
    rw [Engine.deliver_h] at hne
    cases i with
    | init => exact .inl rfl
    | hash d => exact .inr (.inl ⟨d, rfl⟩)
    | compress st b => exact absurd rfl hne
    | update d =>
      refine .inr (.inr ⟨fun hp => hne ?_, .inl ⟨d, rfl⟩⟩)
      simp [Engine.afterInstr, hp]
    | finalize =>
      refine .inr (.inr ⟨fun hp => hne ?_, .inr rfl⟩)
      simp [Engine.afterInstr, hp]

/-- Settles O34: an engine that a step changes is reset or goes through the step's move
(`step_engine`), and few moves write H (`EngineMove.writes_h`). -/
theorem writersOfH : Obligations.WritersOfH := by
  intro s t k e e' h he he' hne
  obtain ⟨f, hf, hcases⟩ := step_engine h he'
  obtain rfl : e = f := Option.some.inj (he.symm.trans hf)
  rcases hcases with rfl | ⟨hin, -⟩ | ⟨a, hact, hmove⟩
  · exact absurd rfl hne
  · exact .inl hin
  · obtain rfl | ⟨rfl, hwrites⟩ := hmove.writes_h hne
    · exact .inr (.inl (hact.resolve_left fun ⟨_, _, ha⟩ => nomatch ha))
    · exact .inr (.inr ⟨hact.imp_left fun ⟨hin, hk, _⟩ => ⟨hin, hk⟩, hwrites⟩)

/-- What an act makes of an engine is told by the engine and the build: on two platforms that have
the same of both it is refused alike, or leaves the same engine. It never faults. -/
theorem portAction_congr (a : PortAction) {u v : State} (hself : u.self = v.self)
    (hc : u.hasCompress = v.hasCompress) :
    (∃ r, portAction a u = .refused r ∧ portAction a v = .refused r) ∨
      ∃ e, portAction a u = .next (u.onSelf fun _ => e) ∧
        portAction a v = .next (v.onSelf fun _ => e) := by
  cases a with
  | send tx bytes => exact .inr ⟨_, rfl, by rw [hself]; rfl⟩
  | accept n => exact .inr ⟨_, rfl, by rw [hself]; rfl⟩
  | ready on => exact .inr ⟨_, rfl, by rw [hself]; rfl⟩
  | reset => exact .inr ⟨_, rfl, by rw [hself]; rfl⟩
  | run =>
    simp only [portAction]
    cases hw : v.self.waits v.hasCompress with
    | true =>
      rw [takeTurn_waits hw, takeTurn_waits (by rwa [hself, hc])]
      exact .inr ⟨v.self, by rw [← hself]; rfl, rfl⟩
    | false =>
      rw [takeTurn_enabled hw, takeTurn_enabled (by rwa [hself, hc])]
      obtain ⟨hidle, hnot⟩ := Engine.waits_eq_false_iff.mp hw
      have hidle' : u.self.rspPending = [] := hself ▸ hidle
      have hfetch : fetch u.hasCompress u.self.cmdPort = fetch v.hasCompress v.self.cmdPort := by
        rw [hself, hc]
      cases hf : fetch v.hasCompress v.self.cmdPort with
      | waiting => exact absurd hf hnot
      | reserved =>
        exact .inl ⟨_, runCommand_reserved hidle' (hfetch.trans hf), runCommand_reserved hidle hf⟩
      | concurrent =>
        exact .inl
          ⟨_, runCommand_concurrent hidle' (hfetch.trans hf), runCommand_concurrent hidle hf⟩
      | command i rest =>
        have hu := runCommand_command_eq hidle' (hfetch.trans hf)
        rw [hself] at hu
        obtain ⟨hceil, hv⟩ | ⟨hceil, hv⟩ := runCommand_command_eq hidle hf
        · exact .inl ⟨_, (hu.resolve_right fun h => h.1 hceil).2, hv⟩
        · have hrun := (hu.resolve_left fun h => hceil h.1).2
          exact .inr ⟨v.self.answered i rest, by rw [hrun, State.onSelf, hself]; rfl, hv⟩

/-- `t` is `s` with engine `k` made `e` and `evs` as the inputs left. -/
def State.Updated (s : State) (k : Nat) (e : Engine) (evs : List Event) (t : State) : Prop :=
  t.engines = s.engines.set k e ∧ t.inputs = evs ∧ t.hasCompress = s.hasCompress

/-- The step that an input at engine `k` is, on two platforms with the same engine `k` and the same
build: it is refused alike, or leaves the same engine `k` and no other engine changed. -/
theorem step_port_congr {s s' : State} {k : Nat} {a : PortAction} {evs evs' : List Event}
    {e : Engine} (hin : s.inputs = .port k a :: evs) (hin' : s'.inputs = .port k a :: evs')
    (he : s.engines[k]? = some e) (he' : s'.engines[k]? = some e)
    (hc : s.hasCompress = s'.hasCompress) :
    (∃ r, step s = .refused r ∧ step s' = .refused r) ∨
      ∃ f t t', step s = .next t ∧ s.Updated k f evs t ∧
        step s' = .next t' ∧ s'.Updated k f evs' t' := by
  obtain ⟨u, hstep, rfl, heng, rfl, hins, huc⟩ := step_port hin he
  obtain ⟨u', hstep', hself, heng', hlen', hins', huc'⟩ := step_port hin' he'
  rw [hstep, hstep']
  refine (portAction_congr a hself.symm (huc.trans (hc.trans huc'.symm))).imp_right ?_
  rintro ⟨f, hact, hact'⟩
  refine ⟨f, _, _, hact, ⟨?_, hins, huc⟩, hact', ?_, hins', huc'⟩
  · rw [State.onSelf_engines, heng]
  · rw [State.onSelf_engines, heng', hlen']

/-- An input at the ports of an engine that does not exist stops the machine (R151). -/
theorem step_noSuchInstance {s : State} {k : Nat} {a : PortAction} {evs : List Event}
    (hin : s.inputs = .port k a :: evs) (hk : s.engines.length ≤ k) :
    step s = .fault .noSuchInstance := by
  have hfocus : ({ s with inputs := evs } : State).focus k = none := State.focus_none_iff.mpr hk
  simp [step, stepPlatform, hin, takeInput, hfocus]

/-- Settles O44: where the engine exists its act never faults (`step_port_congr`). -/
theorem noSuchInstance : Obligations.NoSuchInstance := by
  intro s k a evs hin
  refine ⟨fun hstep => ?_, step_noSuchInstance hin⟩
  by_contra! hk
  have he := List.getElem?_eq_getElem hk
  obtain ⟨r, href, -⟩ | ⟨f, t, t', hnext, -⟩ := step_port_congr hin hin he he rfl
  · cases hstep.symm.trans href
  · cases hstep.symm.trans hnext

/-- Settles O46: `step_port_congr`, and `step_noSuchInstance` where there is no engine `k`. -/
theorem instanceReadsOnlyItself : Obligations.InstanceReadsOnlyItself := by
  intro s s' k a evs evs' hin hin' hsame hc
  cases he : s.engines[k]? with
  | none =>
    have he' := hsame.symm.trans he
    rw [step_noSuchInstance hin (List.getElem?_eq_none_iff.mp he),
      step_noSuchInstance hin' (List.getElem?_eq_none_iff.mp he')]
    exact ⟨fun _ => Iff.rfl, fun _ => Iff.rfl, nofun⟩
  | some e =>
    obtain ⟨r, hstep, hstep'⟩ | ⟨f, u, u', hstep, ⟨heng, -⟩, hstep', ⟨heng', -⟩⟩ :=
      step_port_congr hin hin' he (hsame.symm.trans he) hc
    · rw [hstep, hstep']
      exact ⟨fun _ => Iff.rfl, fun _ => Iff.rfl, nofun⟩
    · rw [hstep, hstep']
      refine ⟨by simp, by simp, ?_⟩
      rintro t ⟨⟩
      have hk := (List.getElem?_eq_some_iff.mp he).1
      have hk' := (List.getElem?_eq_some_iff.mp (hsame.symm.trans he)).1
      exact ⟨u', f, f, rfl, by rw [heng, List.getElem?_set_self hk],
        by rw [heng', List.getElem?_set_self hk'], ⟨rfl, rfl, rfl, rfl, rfl⟩, ⟨rfl, rfl, rfl, rfl⟩⟩

theorem core_step (s : State) : core.step s = step s := rfl

theorem run_one (s : State) : core.run 1 s = step s := by
  cases hs : step s <;> simp only [Host.Core.run, core_step, hs] <;> rfl

theorem run_succ {s u : State} (h : step s = .next u) (n : Nat) :
    core.run (n + 1) s = core.run n u := by
  simp [Host.Core.run, core_step, h]

/-- A run that completes takes its first step and then the others. -/
theorem run_succ_next {n : Nat} {s t : State} :
    core.run (n + 1) s = .next t ↔ ∃ u, step s = .next u ∧ core.run n u = .next t := by
  cases hs : step s <;> simp [Host.Core.run, core_step, hs]

/-- An act at the ports of engine `k` that does not stop the machine does the same after a step that
left engine `k` as it was. -/
theorem step_port_transfer {s s' t : State} {k : Nat} {a : PortAction} {evs evs' : List Event}
    (h : step s = .next t) (hin : s.inputs = .port k a :: evs)
    (hin' : s'.inputs = .port k a :: evs') (hsame : s'.engines[k]? = s.engines[k]?)
    (hc : s'.hasCompress = s.hasCompress) :
    ∃ f t', s.Updated k f evs t ∧ step s' = .next t' ∧ s'.Updated k f evs' t' := by
  cases he : s.engines[k]? with
  | none => cases h.symm.trans (step_noSuchInstance hin (List.getElem?_eq_none_iff.mp he))
  | some e =>
    obtain ⟨r, href, -⟩ | ⟨f, u, u', hstep, hu, hstep', hu'⟩ :=
      step_port_congr hin hin' he (hsame.trans he) hc.symm
    · cases h.symm.trans href
    · obtain rfl : t = u := Host.Outcome.next.inj (h.symm.trans hstep)
      exact ⟨f, u', hu, hstep', hu'⟩

/-- Settles O47: each of the two acts does to its engine what it does in the other order
(`step_port_transfer`), since the other act leaves that engine as it was (`step_others`). -/
theorem instancesCommute : Obligations.InstancesCommute := by
  intro s t j k a b hjk hrun
  obtain ⟨u, hj, hrun⟩ := run_succ_next.mp hrun
  obtain ⟨v, hk, hv⟩ := run_succ_next.mp hrun
  cases hv
  obtain ⟨hc, hins, -⟩ := step_engines hj
  obtain ⟨ek, w, ⟨heng, -⟩, hk', hengw, hinsw, hcw⟩ :=
    step_port_transfer (s' := { s with inputs := [.port k b, .port j a] }) hk hins rfl
      (step_others hj (.inr rfl) hjk.symm).symm hc.symm
  have hsame := step_others hk' (.inr rfl) hjk
  obtain ⟨ej, t', ⟨hengu, -⟩, hj', hengt', -⟩ := step_port_transfer hj rfl hinsw hsame hcw
  have hengines : t'.engines = t.engines := by
    rw [hengt', hengw, heng, hengu]
    exact List.set_comm _ _ hjk.symm
  refine ⟨t', run_succ_next.mpr ⟨w, hk', run_succ_next.mpr ⟨t', hj', rfl⟩⟩, by rw [hengines], ?_⟩
  intro i e e' he he'
  obtain rfl : e = e' := Option.some.inj (he.symm.trans (hengines ▸ he'))
  exact ⟨⟨rfl, rfl, rfl, rfl, rfl⟩, ⟨rfl, rfl, rfl, rfl⟩⟩

/-- An act that is an operation on its engine is that operation, and no other engine changes. -/
theorem step_act {f : Engine → Engine} {s : State} {k : Nat} {a : PortAction} {evs : List Event}
    {e : Engine} (hact : ∀ u, portAction a u = .next (u.onSelf f))
    (hin : s.inputs = .port k a :: evs) (he : s.engines[k]? = some e) :
    ∃ t, step s = .next t ∧ s.Updated k (f e) evs t := by
  obtain ⟨u, hstep, rfl, heng, rfl, hins, hc⟩ := step_port hin he
  refine ⟨_, hstep.trans (hact u), ?_, hins, hc⟩
  rw [← heng]
  exact State.onSelf_engines u (f u.self)

/-- Settles O43: each of the host's acts is an operation on the engine (`step_act`). -/
theorem hostActsAtThePorts : Obligations.HostActsAtThePorts := by
  intro s k evs e he
  refine ⟨fun tx bs hin => ?_, fun n hin => ?_, fun hin => ?_, fun hin => ?_, fun hin => ?_⟩
  · obtain ⟨t, hstep, heng, hins, -⟩ := step_act (fun _ => rfl) hin he
    exact ⟨t, hstep, hins, heng⟩
  · obtain ⟨t, hstep, heng, hins, -⟩ := step_act (fun _ => rfl) hin he
    exact ⟨t, e.rspPending.take n, e.rspPending.drop n, hstep, hins,
      (List.take_append_drop ..).symm, List.length_take, heng⟩
  · obtain ⟨t, hstep, heng, hins, -⟩ := step_act (fun _ => rfl) hin he
    exact ⟨t, hstep, hins, heng⟩
  · obtain ⟨t, hstep, heng, hins, -⟩ := step_act (fun _ => rfl) hin he
    exact ⟨t, hstep, hins, heng⟩
  · obtain ⟨t, hstep, heng, -⟩ := step_reset hin he
    exact ⟨t, _, hstep, heng, rfl, rfl, rfl, rfl⟩

end Sys2Proof.Machine
end

section
/-! PROOF. The invariant (10_state R29), and what it and the order of turns say of every whole frame
(70_reset_and_hazards §4): it is answered, or a refusal stops the machine. -/

namespace Sys2Proof.Machine

theorem Engine.afterReset_inv (k : Nat) : (Engine.afterReset k).Inv :=
  ⟨⟨[], Nat.zero_le _, rfl, rfl, rfl, rfl⟩, fun _ => rfl⟩

/-- Settles O49: every engine of the platform is right after reset (`State.platform_engines`). -/
theorem resetMeetsInvariant : Obligations.ResetMeetsInvariant := by
  have hplatform (n : Nat) : (State.platform n).Inv := by
    intro e he
    rw [State.platform_engines] at he
    obtain ⟨k, -, rfl⟩ := List.mem_map.mp he
    exact Engine.afterReset_inv k
  exact ⟨hplatform, hplatform 0⟩

/-- After a delivery no response is left pending while the host accepts (R166). -/
theorem Engine.deliver_delivered (e : Engine) : e.deliver.Delivered := by
  intro hready
  rw [Engine.deliver_hostReady] at hready
  rw [Engine.deliver_ready e hready]

/-- A reset leaves an engine that holds the empty message, and no response (R160). -/
theorem Engine.assertReset_inv (e : Engine) : e.assertReset.Inv :=
  ⟨⟨[], Nat.zero_le _, rfl, rfl, rfl, rfl⟩, fun _ => rfl⟩

/-- Every move keeps the invariant of its engine. -/
theorem EngineMove.keeps_inv {hasCompress : Bool} {e e' : Engine} {a : PortAction}
    (h : EngineMove hasCompress e a e') (hinv : e.Inv) : e'.Inv := by
  obtain ⟨⟨m, hm⟩, hdelivered⟩ := hinv
  cases h with
  | command i rest hidle hf hc =>
    have hholds := (e.answered_sameMessageState i rest).holds (hm.afterInstr hc)
    exact ⟨⟨_, hholds⟩, Engine.deliver_delivered _⟩
  | waits => exact ⟨⟨m, hm⟩, hdelivered⟩
  | send tx bytes => exact ⟨⟨m, hm⟩, hdelivered⟩
  | accept n =>
    refine ⟨⟨m, hm⟩, fun hready => ?_⟩
    rw [Engine.acceptBytes_rspPending, hdelivered hready, List.drop_nil]
  | ready on =>
    refine ⟨⟨m, ?_⟩, Engine.deliver_delivered _⟩
    have hsame : e.SameMessageState ({ e with hostReady := on } : Engine).deliver := by
      refine ⟨?_, ?_, ?_, ?_, ?_⟩ <;> simp [Engine.pending]
    exact hsame.holds hm
  | reset => exact e.assertReset_inv

/-- Settles O48: an engine that a step changes is reset or goes through the step's move
(`step_engine`), and both keep its invariant (`Engine.assertReset_inv`, `EngineMove.keeps_inv`). -/
theorem stepKeepsInvariant : Obligations.StepKeepsInvariant := by
  intro s t hinv h e' he'
  obtain ⟨k, hk⟩ := List.mem_iff_getElem?.mp he'
  obtain ⟨e, he, hcases⟩ := step_engine h hk
  have heinv : e.Inv := hinv e (List.mem_of_getElem? he)
  rcases hcases with rfl | ⟨-, rfl⟩ | ⟨a, -, hmove⟩
  · exact heinv
  · exact e.assertReset_inv
  · exact hmove.keeps_inv heinv

/-- Settles O51: by the invariant no response is pending, so that `self` has its command to take
(`fetch_command`), and that is refused or leaves a next state (`runCommand_command_eq`). -/
theorem noHangUnderInvariant : Obligations.NoHangUnderInvariant := by
  intro s i rest hinv hin hready hd hi
  have hmem : s.self ∈ s.engines := by simp [State.engines]
  obtain ⟨-, hdelivered⟩ := hinv s.self hmem
  have hidle := hdelivered hready
  have hf := fetch_command hd hi
  rw [step_self hin (Engine.has_step hidle hf nofun)]
  obtain ⟨hc, hrun⟩ | ⟨-, hrun⟩ := runCommand_command_eq hidle hf
  · exact .inr ⟨hrun, hc⟩
  · exact .inl ⟨_, hrun⟩

/-- The number of bytes that wait on all command ports. -/
def State.load (s : State) : Nat := (s.engines.map fun e => e.cmdPort.length).sum

/-- A command takes bytes from its engine's port, and none come to any port. -/
theorem load_lt_of_runCommand {s t : State} (h : runCommand s = .next t) : t.load < s.load := by
  obtain ⟨i, rest, -, hf, -, ht⟩ := runCommand_ran h
  have hlen := length_lt_of_fetch hf
  have hself : t.self.cmdPort = rest := ht ▸ s.self.answered_cmdPort i rest
  have hbefore : t.before = s.before := by rw [ht]; rfl
  have hafter : t.after = s.after := by rw [ht]; rfl
  simp only [State.load, State.engines, hself, hbefore, hafter, List.map_append, List.map_cons,
    List.sum_append, List.sum_cons]
  omega

theorem port_le_load {s : State} {e : Engine} (h : e ∈ s.engines) : e.cmdPort.length ≤ s.load :=
  List.le_sum_of_mem (List.mem_map_of_mem (f := fun f : Engine => f.cmdPort.length) h)

/-- With no input left and some engine that has a step, the step is refused, or takes bytes from the
ports and leaves no input. -/
theorem step_progress {s : State} {e : Engine} (hin : s.inputs = []) (hmem : e ∈ s.engines)
    (hw : e.waits s.hasCompress = false) :
    (∃ r, step s = .refused r) ∨ ∃ t, step s = .next t ∧ t.load < s.load := by
  have hturn := State.turn_enabled hmem hw
  obtain ⟨-, heng, -, -, -, hc⟩ := s.giveTurn_spec
  cases hstep : step s with
  | refused r => exact .inl ⟨r, rfl⟩
  | fault r =>
    rw [step_turn hin] at hstep
    have hstuck := runCommand_fault_iff.mp ⟨r, hstep⟩
    rw [hc, hturn] at hstuck
    cases hstuck
  | next t =>
    rw [step_turn hin] at hstep
    refine .inr ⟨t, rfl, ?_⟩
    have hload := load_lt_of_runCommand hstep
    rwa [State.load, State.load, heng] at hload

/-- On the turn of an engine with a whole frame, the step is refused or answers it. -/
theorem step_turn_answers {s : State} {e : Engine} {i : Instr} {more : List PortByte}
    (hin : s.inputs = []) (he : s.engines[s.turn]? = some e) (hidle : e.rspPending = [])
    (hf : fetch s.hasCompress e.cmdPort = .command i more) :
    (∃ r, step s = .refused r) ∨
      ∃ t, step s = .next t ∧ t.engines[s.turn]? = some (e.answered i more) := by
  obtain ⟨-, heng, hself, hlen, -, hc⟩ := s.giveTurn_spec
  obtain rfl : s.giveTurn.self = e := Option.some.inj (hself.symm.trans he)
  rw [step_turn hin]
  obtain ⟨-, hrun⟩ | ⟨-, hrun⟩ := runCommand_command_eq hidle (hc ▸ hf)
  · exact .inl ⟨_, hrun⟩
  · refine .inr ⟨_, hrun, ?_⟩
    have hset := State.onSelf_engines s.giveTurn (s.giveTurn.self.answered i more)
    rw [hlen, heng] at hset
    exact (congrArg (·[s.turn]?) hset).trans (List.getElem?_set_self s.turn_lt)

/-- With no input left, the whole frame of any engine is answered within as many steps as there are
bytes on the ports, or a refusal stops the machine (R166). -/
theorem run_answers {i : Instr} {more : List PortByte} {s : State} {k : Nat} {e : Engine}
    (hin : s.inputs = []) (he : s.engines[k]? = some e) (hidle : e.rspPending = [])
    (hf : fetch s.hasCompress e.cmdPort = .command i more) :
    ∃ n, n ≤ s.load ∧ ((∃ r, core.run n s = .refused r) ∨
      ∃ t, core.run n s = .next t ∧ t.engines[k]? = some (e.answered i more)) := by
  induction hload : s.load using Nat.strong_induction_on generalizing s with
  | _ load ih =>
    subst hload
    have hmem := List.mem_of_getElem? he
    have hone : 1 ≤ s.load :=
      (Nat.zero_lt_of_lt (length_lt_of_fetch hf)).trans_le (port_le_load hmem)
    have hw : e.waits s.hasCompress = false :=
      Engine.has_step hidle hf nofun
    by_cases hk : k = s.turn
    · subst hk
      refine ⟨1, hone, ?_⟩
      rw [run_one]
      exact step_turn_answers hin he hidle hf
    · obtain ⟨r, hstep⟩ | ⟨t, hstep, hlt⟩ := step_progress hin hmem hw
      · exact ⟨1, hone, .inl ⟨r, (run_one s).trans hstep⟩⟩
      · obtain ⟨hc, hins, -⟩ := step_engines hstep
        have htk : t.engines[k]? = some e :=
          (step_others hstep (.inl ⟨hin, rfl, rfl⟩) hk).trans he
        obtain ⟨n, hn, hrun⟩ := ih t.load hlt (hins.trans (by rw [hin]; rfl)) htk (hc ▸ hf) rfl
        refine ⟨n + 1, Nat.succ_le_of_lt (hn.trans_lt hlt), ?_⟩
        rwa [run_succ hstep]

/-- Settles O39: the frame is fetched whole (`fetch_encode`), and so answered (`run_answers`). -/
theorem everyFrameIsAnswered : Obligations.EveryFrameIsAnswered := by
  intro i tx more s k e hwf hmem hin he hidle hready hport
  have hf : fetch s.hasCompress e.cmdPort = .command i more := by
    rw [hport]
    exact fetch_encode hwf hmem tx more
  obtain ⟨n, hn, hrun⟩ := run_answers hin he hidle hf
  obtain ⟨hrsp, hpending⟩ := Engine.answered_response (i := i) (rest := more) hidle hready
  refine ⟨n, hn, hrun.imp_right ?_⟩
  rintro ⟨t, ht, htk⟩
  exact ⟨t, e.replyTo i, e.answered i more, ht, e.replyTo_format i, htk, e.answered_cmdPort i more,
    hrsp, hpending⟩

end Sys2Proof.Machine
end

section
/-! PROOF. Runs of commands at the ports (30_encoding §1, 41_streaming §2): the frames of a command
stream are taken one after another, and the host gets what the commands answer. -/

namespace Sys2Proof.Machine

theorem Engine.SameMessageState.trans {e f g : Engine} (hef : e.SameMessageState f)
    (hfg : f.SameMessageState g) : e.SameMessageState g := by
  obtain ⟨hh, hcnt, htotal, hphase, hpending⟩ := hef
  obtain ⟨hh', hcnt', htotal', hphase', hpending'⟩ := hfg
  exact ⟨hh.trans hh', hcnt.trans hcnt', htotal.trans htotal', hphase.trans hphase',
    hpending.trans hpending'⟩

/-- `self` with a whole frame at its port and a host that accepts takes the frame, unless its
command is over the ceiling. -/
theorem step_answers {s : State} {i : Instr} {rest : List PortByte} (hin : s.inputs = [])
    (hidle : s.self.rspPending = []) (hf : fetch s.hasCompress s.self.cmdPort = .command i rest)
    (hc : ¬ overCeiling i s.self) : step s = .next (s.onSelf (Engine.answered i rest)) := by
  rw [step_self hin (Engine.has_step hidle hf nofun)]
  exact ((runCommand_command_eq hidle hf).resolve_left fun h => hc h.1).2

/-- A stream of frames at the port of `self`, whose host accepts: if the commands complete on an
engine with the same message state, as many steps take exactly those frames, leave the same message
state, and give the host the same answers. -/
theorem run_commandStream {is : List Instr} {tx : Nat} {more : List PortByte} {s u t : State}
    (hframes : ∀ i ∈ is, i.wf = true ∧ i.opcode ∈ Opcode.defined s.hasCompress)
    (hin : s.inputs = []) (hidle : s.self.rspPending = []) (hready : s.self.hostReady = true)
    (hport : s.self.cmdPort = sentBytes tx (commandStream is) ++ more)
    (hsame : u.self.SameMessageState s.self) (hrun : execAll is u = .next t) :
    ∃ t' reply, core.run is.length s = .next t' ∧ t.self.SameMessageState t'.self ∧
      t.self.rspPending = u.self.rspPending ++ reply ∧
      t'.self.rspPort = s.self.rspPort ++ reply ∧ t'.self.cmdPort = more := by
  induction is generalizing s u with
  | nil =>
    cases hrun
    exact ⟨s, [], rfl, hsame, by simp, by simp, by simpa [commandStream, sentBytes] using hport⟩
  | cons i is ih =>
    obtain ⟨v, hexec, hrest⟩ := execAll_cons_next.mp hrun
    obtain ⟨hc, rfl⟩ := exec_next hexec
    obtain ⟨hi, his⟩ := List.forall_mem_cons.mp hframes
    have hstream : commandStream (i :: is) = encode i ++ commandStream is := List.flatMap_cons
    have hf : fetch s.hasCompress s.self.cmdPort =
        .command i (sentBytes tx (commandStream is) ++ more) := by
      rw [hport, hstream, sentBytes_append, List.append_assoc]
      exact fetch_encode hi.1 hi.2 tx _
    have hstep := step_answers hin hidle hf (mt (hsame.overCeiling_iff i).mpr hc)
    have hnext := (hsame.afterInstr i).trans
      (s.self.answered_sameMessageState i (sentBytes tx (commandStream is) ++ more))
    obtain ⟨hrsp, hidle'⟩ := Engine.answered_response (i := i)
      (rest := sentBytes tx (commandStream is) ++ more) hidle hready
    obtain ⟨t', reply, hrun', hstate, hpending, hanswers, hmore⟩ :=
      ih (s := s.onSelf (Engine.answered i (sentBytes tx (commandStream is) ++ more))) his hin
        hidle' ((s.self.answered_hostReady i _).trans hready) (s.self.answered_cmdPort i _) hnext
        hrest
    refine ⟨t', u.self.replyTo i ++ reply, (run_succ hstep is.length).trans hrun', hstate, ?_, ?_,
      hmore⟩
    · rw [hpending, State.onSelf_self, List.append_assoc]
    · rw [hanswers, State.onSelf_self, hrsp, hsame.replyTo i, List.append_assoc]

/-- INIT, UPDATEs and FINALIZE answer the digest of the whole message, from any phase (R119). -/
theorem execAll_init_updates_finalize {parts : List (List Byte)} (s : State)
    (hmax : parts.flatten.length ≤ maxTotal) :
    ∃ t, execAll ([.init] ++ parts.map .update ++ [.finalize]) s = .next t ∧
      t.self.rspPending = s.self.rspPending ++
        (List.replicate (parts.length + 1) 0x00 ++ 0x00 :: digest parts.flatten) ∧
      t.self.phase = .finalized := by
  obtain ⟨t, hrun, hpending, -, hphase⟩ := freshInstanceStreamsDigest parts
    (s.onSelf fun e => e.startMessage.emitting (e.rspPending ++ [0x00])) rfl rfl rfl rfl hmax
  refine ⟨t, execAll_cons_next.mpr ⟨_, exec_init s, hrun⟩, ?_, hphase⟩
  rw [hpending, List.replicate_succ]
  simp

/-- The commands that stream a message within the ceiling are well-formed, and every build has
them. -/
theorem streaming_frames {parts : List (List Byte)} (hasCompress : Bool)
    (hmax : parts.flatten.length ≤ maxTotal) :
    ∀ i ∈ ([.init] ++ parts.map .update ++ [.finalize] : List Instr),
      i.wf = true ∧ i.opcode ∈ Opcode.defined hasCompress := by
  have hinit : Opcode.init ∈ Opcode.defined hasCompress := by decide +revert
  have hupdate : Opcode.update ∈ Opcode.defined hasCompress := by decide +revert
  have hfinalize : Opcode.finalize ∈ Opcode.defined hasCompress := by decide +revert
  intro i hi
  simp only [List.mem_append, List.mem_singleton, List.mem_map] at hi
  obtain (rfl | ⟨d, hd, rfl⟩) | rfl := hi
  · exact ⟨rfl, hinit⟩
  · have hlen : d.length ≤ parts.flatten.length := (List.sublist_flatten_of_mem hd).length_le
    rw [maxTotal] at hmax
    exact ⟨decide_eq_true (by omega), hupdate⟩
  · exact ⟨rfl, hfinalize⟩

/-- Settles O29: the commands complete with the digest (`execAll_init_updates_finalize`), and their
frames at the port give the host the same answers (`run_commandStream`). -/
theorem streamedDigestAtThePorts : Obligations.StreamedDigestAtThePorts := by
  intro parts tx more s hin hidle hready hmax hport
  obtain ⟨t, hexec, hpending, hphase⟩ := execAll_init_updates_finalize s hmax
  obtain ⟨t', reply, hrun, ⟨-, -, -, hphase', -⟩, hreply, hanswers, hmore⟩ :=
    run_commandStream (streaming_frames s.hasCompress hmax) hin hidle hready hport
      (u := s) ⟨rfl, rfl, rfl, rfl, rfl⟩ hexec
  have hlen : ([.init] ++ parts.map .update ++ [.finalize] : List Instr).length =
      parts.length + 2 := by simp
  rw [hlen] at hrun
  rw [hpending, List.append_cancel_left_eq] at hreply
  refine ⟨t', hrun, ?_, hmore, hphase'.symm.trans hphase⟩
  rw [hanswers, ← hreply, List.append_assoc]

/-- The frame of HASH, placed at the port of `self` whose host accepts, gives the host the digest
of its data (R118, R119). -/
theorem step_placeFrame_hash {m : List Byte} {s : State} (hmax : m.length ≤ maxTotal)
    (hready : s.self.hostReady = true) :
    ∃ t, step (placeFrame (encode (.hash m)) s) = .next t ∧
      t.self.rspPort = s.self.rspPort ++ 0x00 :: digest m := by
  have hwf : (Instr.hash m).wf = true := by
    rw [maxTotal] at hmax
    exact decide_eq_true (by omega)
  have hmem : Opcode.hash ∈ Opcode.defined s.hasCompress := by
    generalize s.hasCompress = hasCompress
    decide +revert
  have hstep := step_answers (s := placeFrame (encode (.hash m)) s) rfl rfl
    (fetch_encode hwf hmem 0 s.self.cmdPort) (Nat.not_lt.mpr hmax)
  refine ⟨_, hstep, ?_⟩
  have hdigest := (placeFrame (encode (.hash m)) s).self.hashMessage_h m
  obtain ⟨hrsp, -⟩ := Engine.answered_response (i := .hash m) (rest := s.self.cmdPort)
    (e := (placeFrame (encode (.hash m)) s).self) rfl hready
  rw [Engine.replyTo, hdigest] at hrsp
  exact hrsp

/-- Settles O30: HASH gives the digest of its data (`step_placeFrame_hash`), and the two digests are
evaluated. -/
theorem referenceDigests : Obligations.ReferenceDigests := by
  constructor
  · obtain ⟨t, hstep, hrsp⟩ := step_placeFrame_hash (m := []) (s := State.reset) (by decide) rfl
    refine ⟨t, hstep, hrsp.trans ?_⟩
    decide +kernel
  · obtain ⟨t, hstep, hrsp⟩ :=
      step_placeFrame_hash (m := [0x61, 0x62, 0x63]) (s := State.reset) (by decide) rfl
    refine ⟨t, hstep, hrsp.trans ?_⟩
    decide +kernel

end Sys2Proof.Machine
end
